-- ==== Sys2Proof/Word.lean ====
section
/-! DEFINITION. The words of the block (spec/00_scope.md R6, spec/30_encoding.md R70, R71). Bit 0 is the least significant bit of each. -/

namespace Sys2Proof

/-- `u8`: the width of `OVF` and of `msb`. -/
abbrev Byte := BitVec 8

/-- `u32`: raw samples, tick values, operands and results. -/
abbrev Word := BitVec 32

/-- The 35-bit command word `CMD` (R70). -/
abbrev CmdWord := BitVec 35

/-- The 33-bit response word `RSP` (R71). -/
abbrev RspWord := BitVec 33

end Sys2Proof
end

