-- ==== Sys2Proof/Syntax.lean ====
section
/-! DEFINITION. The commands of the block: one constructor per row of spec/opcode_table.json (spec/30_encoding.md R73). -/

namespace Sys2Proof

/-- A command as the block executes it. The `ARG` field of TICKS, IRQDIS and IRQEN is ignored
(R75), so those constructors carry none (DEDUCED, log entry 16). -/
inductive Instr where
  /-- TICKS: read the tick counter (R91). -/
  | ticks
  /-- DELTA: signed distance from now to `target` (R110). -/
  | delta (target : Word)
  /-- CHKDL: has `target` been reached (R111)? -/
  | chkdl (target : Word)
  /-- IRQDIS: enter an interrupts-disabled region (R130). -/
  | irqdis
  /-- IRQEN: leave an interrupts-disabled region (R131). -/
  | irqen
deriving DecidableEq, Repr

/-- TICKS, DELTA or CHKDL: a command that takes one sample of the raw counter (R203). -/
def Instr.isTime : Instr → Bool
  | .ticks => true
  | .delta _ => true
  | .chkdl _ => true
  | .irqdis => false
  | .irqen => false

end Sys2Proof
end

