-- ==== Sys2Proof/Config.lean ====
section
/-! DEFINITION. What an instance of the block fixes at build time (spec/00_scope.md R4, spec/70_reset_and_hazards.md R201) and the free values that stand for the draws of the environment. -/

namespace Sys2Proof

/-- The implementation parameters of R4. The range of `E` is part of the type, as R201 asks: an illegal `E` is no instance. -/
structure Config where
  /-- `E`, the scale exponent: a tick is `2^E` microseconds. -/
  e : Nat
  /-- `USED[i]` for `i < NUM_DIO`; its length is `NUM_DIO`. -/
  used : List Bool
  /-- `cfg_ok`, the value at this `USED` of the platform's precondition (log entry 9). -/
  cfgOk : Bool
  /-- `NEST_W`, the width in bits of the nesting counter. -/
  nestW : Nat
  /-- `MAX_CHUNK_TICKS` of WAIT_UNTIL. -/
  maxChunkTicks : Nat
  /-- `COARSE_MS` of WAIT_UNTIL. -/
  coarseMs : Nat
  /-- `COARSE_TICKS` of WAIT_UNTIL. -/
  coarseTicks : Nat
  e_range : 0 < e ∧ e < 8
  nestW_pos : 1 ≤ nestW
  wait_pos : 0 < maxChunkTicks ∧ 0 < coarseMs ∧ 0 < coarseTicks
deriving DecidableEq, Repr

namespace Config

/-- `NUM_DIO`, the number of monitored pin slots. -/
def numDio (c : Config) : Nat := c.used.length

/-- Slot `i` exists and is wired to a pin: `i < NUM_DIO` and `USED[i] = true`. -/
def isUsed (c : Config) (i : Nat) : Bool := c.used.getD i false

/-- The configuration `State.reset` is built with: that of the spec's programs P1 and P3
(DESIGN CHOICE, log entries 1 and 10; no statement rests on these values). -/
def standard : Config where
  e := 6
  used := [true, true, false]
  cfgOk := true
  nestW := 8
  maxChunkTicks := 250
  coarseMs := 16
  coarseTicks := 250
  e_range := by decide
  nestW_pos := by decide
  wait_pos := by decide

/-- Free value: what the `n`-th `RawRead()` gives where the state's `rawIn` names no sample
(R60, log entry 5). Nothing constrains it. -/
opaque freeRaw : Nat → Word

/-- Free value: what `PinRead(i)` gives in the `n`-th POLL pass (`freePin i n`) where the state's `pinIn`
names no level (R61, log entry 5). Nothing constrains it. -/
opaque freePin : Nat → Nat → Bool

/-- Free value: the `u32` a sleep of the platform is called with where WAIT_UNTIL's argument `n` is `2^32`
or more, for which the spec states none (R114, R184, log entry 10). Nothing constrains it. -/
opaque freeSleep : (n : Nat) → Word

/-- Free value: the `i32`, as a word, that WAIT_UNTIL's remaining delta holds after `d <- d - COARSE_TICKS`
where the difference is no `i32`, for which the spec states none (R114, log entry 10). Nothing constrains it. -/
opaque freeDelta : (d : Word) → (coarseTicks : Nat) → Word

end Config

end Sys2Proof
end

