-- ==== Sys2Proof/WellFormed.lean ====
section
/-! DEFINITION. What must hold of a term before it is a configuration, a command word or a command. -/

namespace Sys2Proof

/-- The parameters of R4 as plain numbers, before the build-time check of R201. -/
structure Params where
  e : Nat
  used : List Bool
  cfgOk : Bool
  nestW : Nat
  maxChunkTicks : Nat
  coarseMs : Nat
  coarseTicks : Nat
deriving DecidableEq, Repr

namespace Params

/-- `0 < E < 8` (R96, R201): both `E = 0` and `E >= 8` are rejected. -/
abbrev ScaleOk (p : Params) : Prop := 0 < p.e ∧ p.e < 8

/-- `NEST_W >= 1` (R4). -/
abbrev WidthOk (p : Params) : Prop := 1 ≤ p.nestW

/-- The constants of WAIT_UNTIL are positive (R4). -/
abbrev WaitOk (p : Params) : Prop := 0 < p.maxChunkTicks ∧ 0 < p.coarseMs ∧ 0 < p.coarseTicks

/-- The build-time check: the instance with these parameters, if there is one (R201). -/
def build (p : Params) : Option Config :=
  if h : p.ScaleOk ∧ p.WidthOk ∧ p.WaitOk then
    some ⟨p.e, p.used, p.cfgOk, p.nestW, p.maxChunkTicks, p.coarseMs, p.coarseTicks, h.1, h.2.1, h.2.2⟩
  else none

end Params

/-- A number is a command word iff it has at most 35 bits (R70). -/
abbrev IsCmdNumber (n : Nat) : Prop := n < 2 ^ 35

namespace Instr

/-- A command is well formed for every operand: "all 2^32 values are legal" (R72). -/
def wf : Instr → Bool
  | .ticks => true
  | .delta _ => true
  | .chkdl _ => true
  | .irqdis => true
  | .irqen => true

end Instr

end Sys2Proof
end

