-- ==== Sys2Proof/Decode.lean ====
section
/-! DEFINITION. The command encoding of spec/30_encoding.md: the fields (R70), the decoder, total on every 35-bit word (R73, R74, R75), the encoder (R73, canonical ARG of R75), and the opcode map as a table of masks and matches. -/

namespace Sys2Proof

/-- `OP = CMD[34:32]` (R70). -/
def opField (w : CmdWord) : BitVec 3 := w.extractLsb' 32 3

/-- `ARG = CMD[31:0]` (R70). -/
def argField (w : CmdWord) : Word := w.extractLsb' 0 32

/-- The command word with the given fields (R70). -/
def cmdWord (op : BitVec 3) (arg : Word) : CmdWord := op ++ arg

/-- What a command word is: one of the five commands, or illegal with its `OP` named (R74). -/
inductive Decoded where
  | command (i : Instr)
  | illegal (op : BitVec 3)
deriving DecidableEq, Repr

/-- The decoder (R73): `OP` alone selects the row; `OP` 5, 6 and 7 are illegal (R74); the `ARG` of
TICKS, IRQDIS and IRQEN is ignored (R75). -/
def decode (w : CmdWord) : Decoded :=
  match (opField w).toNat with
  | 0 => .command .ticks
  | 1 => .command (.delta (argField w))
  | 2 => .command (.chkdl (argField w))
  | 3 => .command .irqdis
  | 4 => .command .irqen
  | _ => .illegal (opField w)

namespace Instr

/-- The opcode of a command (R73). -/
def opcode : Instr → BitVec 3
  | .ticks => 0
  | .delta _ => 1
  | .chkdl _ => 2
  | .irqdis => 3
  | .irqen => 4

/-- The `ARG` of a command's canonical encoding (R72, R75). -/
def arg : Instr → Word
  | .ticks => 0
  | .delta target => target
  | .chkdl target => target
  | .irqdis => 0
  | .irqen => 0

/-- The mnemonic of a command (R73). -/
def mnemonic : Instr → String
  | .ticks => "TICKS"
  | .delta _ => "DELTA"
  | .chkdl _ => "CHKDL"
  | .irqdis => "IRQDIS"
  | .irqen => "IRQEN"

end Instr

/-- The canonical command word of a command (R73, R75). -/
def encode (i : Instr) : CmdWord := cmdWord i.opcode i.arg

/-- One row of the opcode map of R73. -/
structure OpcodeRow where
  mnemonic : String
  mask : CmdWord
  pattern : CmdWord
deriving DecidableEq, Repr

/-- The opcode map of R73, its `mask` and `match` columns written out. -/
def opcodeMap : List OpcodeRow :=
  [⟨"TICKS", 0x700000000, 0x000000000⟩, ⟨"DELTA", 0x700000000, 0x100000000⟩,
   ⟨"CHKDL", 0x700000000, 0x200000000⟩, ⟨"IRQDIS", 0x700000000, 0x300000000⟩,
   ⟨"IRQEN", 0x700000000, 0x400000000⟩]

/-- "a word `w` selects the row whose `(w and mask) = match`" (R73). -/
def OpcodeRow.selects (r : OpcodeRow) (w : CmdWord) : Bool := w &&& r.mask == r.pattern

/-- The number the opcode table's numbering gives a command word of `nbits` bits; the bits above
`nbits` are 0 (log entry 15). -/
def tableNumber (nbits w : Nat) : Nat := w % 2 ^ nbits

/-- The host's question of the decoder: the command whose table bits are `w`, if there is one. A
number of more than 35 bits is no command word (R70). -/
def decodeTableWord (nbits w : Nat) : Option Instr :=
  if IsCmdNumber (tableNumber nbits w) then
    match decode (BitVec.ofNat 35 (tableNumber nbits w)) with
    | .command i => some i
    | .illegal _ => none
  else none

end Sys2Proof
end

