-- ==== Sys2Proof/Machine/State.lean ====
section
/-! DEFINITION. The state of the block (spec/10_state.md), the events and responses it gives, the host's actions, the reasons a step can stop, and the state after reset. -/

namespace Sys2Proof.Machine

/-- The alphabet of the output event trace (R31). -/
inductive Event where
  /-- `disable_hw_interrupts()` was called. -/
  | hwIrqDisable
  /-- `enable_hw_interrupts()` was called. -/
  | hwIrqEnable
  /-- The radio callback was invoked with slot index `i`. -/
  | radioIrq (i : Nat)
  /-- The fatal-failure hook was invoked. -/
  | fatal
deriving DecidableEq, Repr

/-- The response word's fields (R71): `ERR` and `DATA`. -/
structure Response where
  err : Bool
  data : Word
deriving DecidableEq, Repr

/-- The inputs an annotated line fixes for its step (R77): the sample of its `RawRead()`, if it names one,
and for each slot it names the level of its `PinRead(i)`; the first level named for a slot counts. -/
structure Draws where
  raw : Option Word
  pins : List (Nat × Bool)
deriving DecidableEq, Repr

/-- What the host does to the block from outside: present a command word (R70), present one as a line of
assembler text, whose annotations fix that step's draws (R77, log entry 20), or reset the block (R200). -/
inductive HostAction where
  | command (w : CmdWord)
  | line (w : CmdWord) (draws : Draws)
  | reset
deriving DecidableEq, Repr

/-- Why a step has no successor state the spec vouches for (R172, log entry 7). -/
inductive Fault where
  /-- Raised by IRQEN at `NEST = 0` (R133): undefined by contract; safe, the model stops where the hardware may go on. -/
  | nestUnderflow
  /-- Raised by IRQDIS at `NEST = 2^NEST_W - 1` (R134): no defined behaviour; safe, the model stops where the hardware may go on. -/
  | nestOverflow
deriving DecidableEq, Repr

/-- Why the model refuses. Every command has its meaning, so no step ends so. -/
inductive Refusal where
  /-- Raised by `exec` for an instruction that has no meaning in the model yet; safe. -/
  | notModelled (mnemonic : String)
deriving DecidableEq, Repr

/-- Everything the spec gives the machine (spec/10_state.md), its configuration, what it has
answered, and the outside world as far as the block can see it (log entries 1, 2, 3, 5). -/
structure State where
  /-- The parameters of R4; no step writes them. -/
  cfg : Config
  /-- `OVF`, the overflow-extension register (R22, R23). -/
  ovf : Byte
  /-- `NEST`, the nesting counter, below `2^NEST_W` (R25). -/
  nest : Nat
  /-- `IEN`, the physical interrupt-enable level (R26). -/
  ien : Bool
  /-- `DIO[0 .. NUM_DIO-1]`, the last observed pin levels (R30). -/
  dio : List Bool
  /-- `FAILED`, the terminal-failure latch (R28). -/
  failed : Bool
  /-- The output event trace, oldest first (R31). -/
  trace : List Event
  /-- The responses driven since reset, oldest first (R71, log entry 2). -/
  responses : List Response
  /-- The host's actions still to come, next first (log entry 3). -/
  inputs : List HostAction
  /-- The raw-counter samples to come, next first (R60, log entry 5). -/
  rawIn : List Word
  /-- For each slot the pin levels to come, next first (R61, log entry 5). -/
  pinIn : List (List Bool)
  /-- How many raw samples were taken; picks the free value past the end of `rawIn` (log entry 5). -/
  rawDraws : Nat
  /-- How many POLL passes were run; picks the free value past the end of `pinIn` (log entry 5). -/
  pollCount : Nat
deriving DecidableEq, Repr

/-- The machine of configuration `c` right after reset (R200): every register at its reset value
(R24, R25, R26, R30), then the configuration check of R202, which sets `FAILED` and emits `Fatal`. -/
def State.resetOf (c : Config) : State where
  cfg := c
  ovf := 0x00
  nest := 0
  ien := true
  dio := List.replicate c.numDio false
  failed := !c.cfgOk
  trace := if c.cfgOk then [] else [.fatal]
  responses := []
  inputs := []
  rawIn := []
  pinIn := []
  rawDraws := 0
  pollCount := 0

/-- The machine right after reset, in the standard configuration (log entry 1). -/
def State.reset : State := State.resetOf Config.standard

end Sys2Proof.Machine
end

