-- ==== Sys2Proof/Machine/Operands.lean ====
section
/-! DEFINITION. The constants derived from the configuration (spec/00_scope.md R5), the value forms of commands and responses (R6, spec/30_encoding.md R71, R72). -/

namespace Sys2Proof.Machine

/-- `MASK = 1 << (7 - E)`, the seam bit of `OVF` (R5). -/
def seamMask (e : Nat) : Byte := 1#8 <<< (7 - e)

/-- `US_PER_TICK = 2^E` (R5). -/
def usPerTick (e : Nat) : Nat := 2 ^ e

/-- `SEAM = OVF[7-E]` (R23). -/
def seamField (e : Nat) (ovf : Byte) : Bool := ovf.getLsbD (7 - e)

/-- `EXT = OVF[7 : 8-E]` as a number (R23). -/
def extField (e : Nat) (ovf : Byte) : Nat := ovf.toNat / 2 ^ (8 - e)

/-- `ZERO = OVF[6-E : 0]` as a number (R23). -/
def zeroField (e : Nat) (ovf : Byte) : Nat := ovf.toNat % 2 ^ (7 - e)

/-- `as_i32(v)` (R6). -/
def asI32 (v : Word) : Int := v.toInt

/-- `as_u32(s)` (R6). -/
def asU32 (s : Int) : Word := BitVec.ofInt 32 s

/-- A bool put into a word: `false = 0`, `true = 1` (R6). -/
def boolWord (b : Bool) : Word := (BitVec.ofBool b).setWidth 32

/-- `target -_32 t`, the distance from the tick value `t` to `target`, modulo 2^32 (R110). -/
def distance (target t : Word) : Word := target - t

/-- The 33-bit response word `RSP = {ERR, DATA}` (R71). -/
def rspWord (r : Response) : RspWord := BitVec.ofBool r.err ++ r.data

end Sys2Proof.Machine
end

