-- ==== Sys2Proof/Machine/Flags.lean ====
section
/-! DEFINITION. The conditions commands compute. The block has no condition codes and stores none of these (spec/10_state.md R29): the deadline test is answered (R111), the guard tests choose a command's path (R130, R131), the edge tests drive POLL (R150, spec/60_exceptions.md R176). -/

namespace Sys2Proof.Machine

/-- `d <= 0` as a signed comparison: the deadline is reached or passed (R111). -/
def deadlineReached (d : Word) : Bool := decide (asI32 d ≤ 0)

/-- `NEST` can count one more IRQDIS: `NEST < 2^NEST_W - 1` (R134, log entry 6). -/
def nestHasRoom (s : State) : Bool := decide (s.nest + 1 < 2 ^ s.cfg.nestW)

/-- `DIO[i]`; `false` past the end of the file (log entry 19). -/
def dioAt (s : State) (i : Nat) : Bool := s.dio.getD i false

/-- The level the next `PinRead(i)` gives (R61): the environment's, or a free value (log entry 5). -/
def pinSample (s : State) (i : Nat) : Bool := (s.pinIn.getD i []).headD (Config.freePin i s.pollCount)

/-- A source is pending iff its slot is used and `PIN[i] != DIO[i]` (R176). -/
def pinPending (s : State) (i : Nat) : Bool := s.cfg.isUsed i && (pinSample s i != dioAt s i)

/-- A rising edge is pending iff `DIO[i] = false` and `PIN[i] = true` (R176). -/
def risingPending (s : State) (i : Nat) : Bool := s.cfg.isUsed i && (pinSample s i && !dioAt s i)

end Sys2Proof.Machine
end

