-- ==== Sys2Proof/Machine/Ops.lean ====
section
/-! DEFINITION. The named operations over the block's state: the primitives of spec/00_scope.md R7, the writes of registers, tick_step (spec/40_tickclock.md R90), the delivery of a pin event and the refusal of an illegal opcode (spec/60_exceptions.md R173, R179), and reset of a running block (spec/70_reset_and_hazards.md R200). There is no memory to operate on (R50), no trap entry that saves anything (R179) and no return from one (R180). -/

namespace Sys2Proof.Machine

/-- `emit Ev`: append to the event trace (R7, R31). -/
def State.emit (ev : Event) (s : State) : State := { s with trace := s.trace ++ [ev] }

/-- `respond(err, data)`: drive the response word (R7, R71). -/
def State.respond (err : Bool) (data : Word) (s : State) : State :=
  { s with responses := s.responses ++ [⟨err, data⟩] }

/-- `OVF <- v`. -/
def State.setOvf (v : Byte) (s : State) : State := { s with ovf := v }

/-- `NEST <- n`. -/
def State.setNest (n : Nat) (s : State) : State := { s with nest := n }

/-- `IEN <- b`. -/
def State.setIen (b : Bool) (s : State) : State := { s with ien := b }

/-- `DIO[i] <- b`. -/
def State.setDio (i : Nat) (b : Bool) (s : State) : State := { s with dio := s.dio.set i b }

/-- What remains of the host's actions. -/
def State.setInputs (l : List HostAction) (s : State) : State := { s with inputs := l }

/-- The value of one `RawRead()` (R60): the environment's next sample, or a free value (log entry 5). -/
def rawSample (s : State) : Word := s.rawIn.headD (Config.freeRaw s.rawDraws)

/-- The state after one `RawRead()`: the sample is used up. -/
def State.takeRaw (s : State) : State := { s with rawIn := s.rawIn.tail, rawDraws := s.rawDraws + 1 }

/-- The state after `PinRead(i)`: the level is used up. -/
def State.takePin (i : Nat) (s : State) : State := { s with pinIn := s.pinIn.modify i List.tail }

/-- What the environment will give: the raw samples and, for each slot, the pin levels to come. -/
def State.setEnv (raws : List Word) (pins : List (List Bool)) (s : State) : State :=
  { s with rawIn := raws, pinIn := pins }

/-- The sample a line fixes (R77). -/
def Draws.raws (d : Draws) : List Word := d.raw.toList

/-- The levels a line fixes, for each of `n` slots (R77). -/
def Draws.levels (d : Draws) (n : Nat) : List (List Bool) := (List.range n).map fun i => (d.pins.lookup i).toList

/-- One more POLL pass was run. -/
def State.countPoll (s : State) : State := { s with pollCount := s.pollCount + 1 }

/-- `scaled = raw >> E` (R90). -/
def scaled (e : Nat) (raw : Word) : Word := raw >>> e

/-- `msb = scaled[31:24]` (R90). -/
def msbOf (v : Word) : Byte := v.extractLsb' 24 8

/-- `OVF +_8 ((msb xor OVF) and MASK)` (R90). -/
def ovfUpdate (e : Nat) (raw : Word) (ovf : Byte) : Byte :=
  ovf + ((msbOf (scaled e raw) ^^^ ovf) &&& seamMask e)

/-- `scaled or (zext_32(OVF) << 24)` (R90). -/
def tickValue (e : Nat) (raw : Word) (ovf : Byte) : Word := scaled e raw ||| (ovf.setWidth 32 <<< 24)

/-- `tick_step()` (R90): one sample of the raw counter, one update of `OVF`, and the tick value,
computed from the NEW `OVF`. -/
def tickStep (s : State) : Word × State :=
  let raw := rawSample s
  let ovf := ovfUpdate s.cfg.e raw s.ovf
  (tickValue s.cfg.e raw ovf, s.takeRaw.setOvf ovf)

/-- Delivery of a pin event (R179): `DIO[i]` is flipped, then, on a rising edge only, `RadioIrq(i)`
is emitted. Nothing is saved and nothing else changes. -/
def deliverPinEvent (i : Nat) (s : State) : State :=
  let s1 := s.setDio i (!dioAt s i)
  if dioAt s1 i then s1.emit (.radioIrq i) else s1

/-- `IllegalOp` (R173): the command is refused with `ERR = 1`, `DATA = 0` and nothing else happens. -/
def refuseIllegalOp (s : State) : State := s.respond true 0

/-- Reset of a running block (R200, R202, R35): every register takes its reset value and the check of
`cfg_ok` is made; the host's further actions and the environment are not the block's and go on (log entry 17). -/
def restart (s : State) : State :=
  { State.resetOf s.cfg with
    inputs := s.inputs, rawIn := s.rawIn, pinIn := s.pinIn, rawDraws := s.rawDraws, pollCount := s.pollCount }

end Sys2Proof.Machine
end

