-- ==== Sys2Proof/Machine/DeadlineOps.lean ====
section
/-! DEFINITION. DeadlineOps: the commands DELTA and CHKDL (spec/41_deadline.md). Both run tick_step once and so write OVF (spec/90_conflicts.md C4). -/

namespace Sys2Proof.Machine

/-- DELTA (R110): `t <- tick_step(); respond(0, target -_32 t)`. -/
def execDelta (target : Word) (s : State) : Host.Outcome State Fault Refusal :=
  let (t, s1) := tickStep s
  .next (s1.respond false (distance target t))

/-- CHKDL (R111): `t <- tick_step(); respond(0, zext_32(as_i32(target -_32 t) <= 0))`. -/
def execChkdl (target : Word) (s : State) : Host.Outcome State Fault Refusal :=
  let (t, s1) := tickStep s
  .next (s1.respond false (boolWord (deadlineReached (distance target t))))

end Sys2Proof.Machine
end

