-- ==== Sys2Proof/Machine/PinPoll.lean ====
section
/-! DEFINITION. PinEventPoller: the micro-operation POLL (spec/43_pinpoll.md). It has no opcode; IRQEN runs it (R151). -/

namespace Sys2Proof.Machine

/-- One slot of the pass (R150): an unused slot is skipped entirely (R152); a used one is sampled
once and, where the level differs from `DIO[i]`, the event is delivered. -/
def pollSlot (s : State) (i : Nat) : State :=
  if s.cfg.isUsed i then
    let level := pinSample s i
    let s1 := s.takePin i
    if level != dioAt s1 i then deliverPinEvent i s1 else s1
  else s

/-- POLL (R150): one pass over the slots `0 .. NUM_DIO-1`, ascending (R153). -/
def poll (s : State) : State := ((List.range s.cfg.numDio).foldl pollSlot s).countPoll

end Sys2Proof.Machine
end

