-- ==== Sys2Proof/Machine/IrqGuard.lean ====
section
/-! DEFINITION. IrqNestingGuard: the commands IRQDIS and IRQEN (spec/42_irqguard.md). -/

namespace Sys2Proof.Machine

/-- IRQDIS (R130): `HwIrqDisable`, `IEN <- 0`, `NEST <- NEST + 1`, at every depth; a counter with no
room left is `NestOverflow` (R134). -/
def execIrqdis (s : State) : Host.Outcome State Fault Refusal :=
  if nestHasRoom s then
    let s1 := (s.emit .hwIrqDisable).setIen false
    .next ((s1.setNest (s1.nest + 1)).respond false 0)
  else .fault .nestOverflow

/-- What a top-level IRQEN does once `NEST` is 0 (R131): `HwIrqEnable`, `IEN <- 1`, then POLL. -/
def enableAndPoll (s : State) : State := poll ((s.emit .hwIrqEnable).setIen true)

/-- IRQEN (R131): `NEST <- NEST - 1`; at the new value 0 interrupts are enabled and POLL runs; at
`NEST = 0` it is `NestUnderflow` (R133). -/
def execIrqen (s : State) : Host.Outcome State Fault Refusal :=
  if s.nest = 0 then .fault .nestUnderflow
  else
    let s1 := s.setNest (s.nest - 1)
    let s2 := if s1.nest = 0 then enableAndPoll s1 else s1
    .next (s2.respond false 0)

end Sys2Proof.Machine
end

