-- ==== Sys2Proof/Machine/TickClock.lean ====
section
/-! DEFINITION. TickClock: the command TICKS (spec/40_tickclock.md). -/

namespace Sys2Proof.Machine

/-- TICKS (R91): `t <- tick_step(); respond(0, t)`. -/
def execTicks (s : State) : Host.Outcome State Fault Refusal :=
  let (t, s1) := tickStep s
  .next (s1.respond false t)

end Sys2Proof.Machine
end

