-- ==== Sys2Proof/Machine/Dispatch.lean ====
section
/-! DEFINITION. One arm per command: exec calls its meaning. -/

namespace Sys2Proof.Machine

def exec (i : Instr) (s : State) : Host.Outcome State Fault Refusal :=
  match i with
  | .ticks => Sys2Proof.Machine.execTicks s
  | .delta target => Sys2Proof.Machine.execDelta target s
  | .chkdl target => Sys2Proof.Machine.execChkdl target s
  | .irqdis => Sys2Proof.Machine.execIrqdis s
  | .irqen => Sys2Proof.Machine.execIrqen s

end Sys2Proof.Machine
end

