-- ==== Sys2Proof/Machine/Port.lean ====
section
/-! DEFINITION. The command port (spec/30_encoding.md R70, R71; spec/10_state.md R28; spec/60_exceptions.md R171, R173): what one action of the host does to the block. -/

namespace Sys2Proof.Machine

/-- An accepted command word: a legal one is executed, an illegal one refused with `ERR = 1` (R173). -/
def accept (w : CmdWord) (s : State) : Host.Outcome State Fault Refusal :=
  match decode w with
  | .command i => exec i s
  | .illegal _ => .next (refuseIllegalOp s)

/-- An accepted line (R77): its step draws what its annotations name, and free values for the rest; what the
environment gives to other commands is untouched (log entry 20). -/
def acceptLine (w : CmdWord) (d : Draws) (s : State) : Host.Outcome State Fault Refusal :=
  match accept w (s.setEnv d.raws (d.levels s.cfg.numDio)) with
  | .next t => .next (t.setEnv s.rawIn s.pinIn)
  | .fault f => .fault f
  | .refused r => .refused r

/-- The host's actions from the first reset on, without that reset; none if no reset is to come. -/
def afterReset : List HostAction → Option (List HostAction)
  | [] => none
  | .command _ :: rest => afterReset rest
  | .line _ _ :: rest => afterReset rest
  | .reset :: rest => some rest

/-- The port while `FAILED = 1` (R28): no command is accepted or answered, ever; only a reset
leaves the state. With none to come the block and the waiting host stay as they are (log entry 4). -/
def servePortFailed (s : State) : State :=
  match afterReset s.inputs with
  | none => s
  | some rest => restart (s.setInputs rest)

/-- The port while `FAILED = 0`: it waits while the host does nothing (R21), resets on reset (R200),
and otherwise takes the host's next command word (R8), alone or as a line with its draws (R77). -/
def servePortReady (s : State) : Host.Outcome State Fault Refusal :=
  match s.inputs with
  | [] => .next s
  | .reset :: rest => .next (restart (s.setInputs rest))
  | .command w :: rest => accept w (s.setInputs rest)
  | .line w d :: rest => acceptLine w d (s.setInputs rest)

/-- One step of the block: the next action of the host (R8, R28). -/
def servePort (s : State) : Host.Outcome State Fault Refusal :=
  if s.failed then .next (servePortFailed s) else servePortReady s

end Sys2Proof.Machine
end

