-- ==== Sys2Proof/Machine/Step.lean ====
section
/-! DEFINITION. One step of the machine: the block serves the host's next action (spec/00_scope.md R8). There is no program counter and no fetch (spec/10_state.md R21); a command is fetched from the host. -/

namespace Sys2Proof.Machine

/-- One atomic step (R8). -/
def step (s : State) : Host.Outcome State Fault Refusal := servePort s

/-- The state in which the host's next action is the command word whose table bits are `w`
(log entries 3 and 15). -/
def State.withFetchWord (s : State) (nbits w : Nat) : State :=
  s.setInputs (.command (BitVec.ofNat 35 (tableNumber nbits w)) :: s.inputs)

end Sys2Proof.Machine
end

