-- ==== Sys2Proof/Machine/Assembler.lean ====
section
/-! DEFINITION. The assembler syntax and the disassembly of spec/30_encoding.md R77 and R79, over lists of characters. Points of text the spec leaves open are in log entry 14. -/

namespace Sys2Proof.Machine

/-- The digit `n < 16`, capitals as the spec prints them. -/
def hexDigit (n : Nat) : Char := if n < 10 then Char.ofNat (48 + n) else Char.ofNat (55 + n)

/-- Eight hexadecimal digits (R79). -/
def hexWord (v : Word) : List Char :=
  [7, 6, 5, 4, 3, 2, 1, 0].map fun k => hexDigit (v.toNat / 16 ^ k % 16)

/-- `0x` and eight hexadecimal digits (R79). -/
def hexNumber (v : Word) : List Char := '0' :: 'x' :: hexWord v

/-- A command as the assembler writes it: the mnemonic, then for DELTA and CHKDL the operand (R77, R79). -/
def instrText (i : Instr) : List Char :=
  i.mnemonic.toList ++
    match i with
    | .ticks => []
    | .delta target => ' ' :: hexNumber target
    | .chkdl target => ' ' :: hexNumber target
    | .irqdis => []
    | .irqen => []

/-- A command in the source's own spelling (R73, R77). -/
def sourceText (i : Instr) : List Char :=
  match i with
  | .ticks => "ticks()".toList
  | .delta target => "delta(".toList ++ hexNumber target ++ [')']
  | .chkdl target => "check_deadline(".toList ++ hexNumber target ++ [')']
  | .irqdis => "disable()".toList
  | .irqen => "enable()".toList

/-- The comment that shows a nonzero `ARG` a command ignores (R79). -/
def ignoredArgText (arg : Word) : List Char :=
  if arg = 0 then [] else "; arg=".toList ++ hexNumber arg ++ " (ignored)".toList

/-- The text of a 35-bit word (R79). -/
def disassemble (w : CmdWord) : List Char :=
  match decode w with
  | .command (.delta target) => instrText (.delta target)
  | .command (.chkdl target) => instrText (.chkdl target)
  | .command .ticks => instrText .ticks ++ ignoredArgText (argField w)
  | .command .irqdis => instrText .irqdis ++ ignoredArgText (argField w)
  | .command .irqen => instrText .irqen ++ ignoredArgText (argField w)
  | .illegal op => "ILLEGAL 0x".toList ++ hexDigit op.toNat :: '_' :: hexWord (argField w)

/-- The value of a decimal digit. -/
def decValue (c : Char) : Option Nat := if '0' ≤ c ∧ c ≤ '9' then some (c.toNat - 48) else none

/-- The value of a hexadecimal digit, in capitals or not. -/
def hexValue (c : Char) : Option Nat :=
  if '0' ≤ c ∧ c ≤ '9' then some (c.toNat - 48)
  else if 'A' ≤ c ∧ c ≤ 'F' then some (c.toNat - 55)
  else if 'a' ≤ c ∧ c ≤ 'f' then some (c.toNat - 87)
  else none

/-- The number a list of digits stands for, the digits before it worth `acc`. -/
def digitsValue (digit : Char → Option Nat) (base : Nat) : (acc : Nat) → List Char → Option Nat
  | acc, [] => some acc
  | acc, c :: cs =>
    match digit c with
    | some d => digitsValue digit base (acc * base + d) cs
    | none => none

/-- "a 32-bit unsigned number in decimal or `0x` hexadecimal" (R77). The digit separator `_` of R6's own
notation is read in no number of a line, and
the `<u32>` of `raw=`, whose form R77 does not state, is read in the operand's two forms (DESIGN CHOICE, log entry 14). -/
def parseWord (cs : List Char) : Option Word :=
  let value : Option Nat :=
    match cs with
    | [] => none
    | ['0', 'x'] => none
    | '0' :: 'x' :: ds => digitsValue hexValue 16 0 ds
    | ds => digitsValue decValue 10 0 ds
  match value with
  | some n => if n < 2 ^ 32 then some (BitVec.ofNat 32 n) else none
  | none => none

/-- The text between blanks. -/
def splitBlanks : List Char → List (List Char)
  | [] => [[]]
  | c :: cs =>
    match splitBlanks cs with
    | [] => [[c]]
    | t :: ts => if c = ' ' ∨ c = '\t' then [] :: t :: ts else (c :: t) :: ts

/-- The words of a line; a `;` starts a comment (R77). -/
def lineWords (line : List Char) : List (List Char) :=
  (splitBlanks (line.takeWhile (· != ';'))).filter (fun t => !t.isEmpty)

/-- One assembler line: at most one command and the draws its annotations fix (R77). -/
structure AsmLine where
  command : Option Instr
  draws : Draws
deriving DecidableEq, Repr

/-- `pin[i]=<0|1>` after the characters `pin[` (R77). R77 does not say how the slot index `i` is written: it is
read in decimal only, and any number is read, a slot the block has or not (DESIGN CHOICE, log entry 14). -/
def parsePin (cs : List Char) : Option (Nat × Bool) :=
  match digitsValue decValue 10 0 (cs.takeWhile (· != ']')), cs.dropWhile (· != ']') with
  | some i, [']', '=', '0'] => if cs.head? = some ']' then none else some (i, false)
  | some i, [']', '=', '1'] => if cs.head? = some ']' then none else some (i, true)
  | _, _ => none

/-- The annotations of a line, `raw=<u32>` and `pin[i]=<0|1>`, in any order (R77). A second annotation of
one draw makes the text no line (DESIGN CHOICE, log entry 14). -/
def parseDraws (d : Draws) : List (List Char) → Option Draws
  | [] => some d
  | ('r' :: 'a' :: 'w' :: '=' :: v) :: rest =>
    match d.raw, parseWord v with
    | none, some r => parseDraws { d with raw := some r } rest
    | _, _ => none
  | ('p' :: 'i' :: 'n' :: '[' :: v) :: rest =>
    match parsePin v with
    | some p => if (d.pins.lookup p.1).isSome then none else parseDraws { d with pins := d.pins ++ [p] } rest
    | none => none
  | _ :: _ => none

/-- A line that gives command `i` and whose remaining words are annotations. -/
def lineOf (i : Instr) (rest : List (List Char)) : Option AsmLine :=
  (parseDraws ⟨none, []⟩ rest).map fun d => ⟨some i, d⟩

/-- A line whose command takes the operand that comes next (R77). -/
def operandLine (command : Word → Instr) : List (List Char) → Option AsmLine
  | [] => none
  | operand :: rest =>
    match parseWord operand with
    | some target => lineOf (command target) rest
    | none => none

/-- The operand of a call `name(operand)`, `name` written with its opening parenthesis. -/
def callOperand (name call : List Char) : Option Word :=
  if call.take name.length = name ∧ call.getLast? = some ')' then parseWord ((call.drop name.length).dropLast)
  else none

/-- A command in the source's own spelling, "an equally good surface syntax" (R77): the operation of R73's
column "source operation" as a call with no blank in it (DESIGN CHOICE, log entry 14). -/
def sourceCall (call : List Char) : Option Instr :=
  if call = "ticks()".toList then some .ticks
  else if call = "disable()".toList then some .irqdis
  else if call = "enable()".toList then some .irqen
  else
    match callOperand "delta(".toList call, callOperand "check_deadline(".toList call with
    | some target, _ => some (.delta target)
    | none, some target => some (.chkdl target)
    | none, none => none

/-- The assembler (R77): the mnemonic in capitals and its operand if it has one, or the source's spelling of
the command, then annotations. -/
def assembleWords : List (List Char) → Option AsmLine
  | [] => some ⟨none, ⟨none, []⟩⟩
  | m :: rest =>
    if m = "TICKS".toList then lineOf .ticks rest
    else if m = "DELTA".toList then operandLine .delta rest
    else if m = "CHKDL".toList then operandLine .chkdl rest
    else if m = "IRQDIS".toList then lineOf .irqdis rest
    else if m = "IRQEN".toList then lineOf .irqen rest
    else
      match sourceCall m with
      | some i => lineOf i rest
      | none => none

/-- One line of assembler text (R77); none where the text is no line of the syntax. -/
def assembleLine (line : List Char) : Option AsmLine := assembleWords (lineWords line)

/-- The canonical command word a line of assembler text stands for (R75, R77). -/
def assemble (line : List Char) : Option CmdWord :=
  match assembleLine line with
  | some l => l.command.map encode
  | none => none

/-- A line given to the host: its command is issued after those before it, and its annotations fix the
draws of that command's step (R77, log entry 20). -/
def State.addLine (l : AsmLine) (s : State) : State :=
  s.setInputs (s.inputs ++ (l.command.map fun i => HostAction.line (encode i) l.draws).toList)

end Sys2Proof.Machine
end

