-- ==== Sys2Proof/Machine/HostSeq.lean ====
section
/-! DEFINITION. Sequences of commands, and the two host sequences the spec describes: GUARDED (spec/42_irqguard.md R136) and WAIT_UNTIL (spec/41_deadline.md R114). They run on the host and add no state and no command. -/

namespace Sys2Proof.Machine

/-- Accepted commands one after the other (R57), stopping at the first fault or refusal. -/
def runAll : List Instr → State → Host.Outcome State Fault Refusal
  | [], s => .next s
  | i :: rest, s =>
    match exec i s with
    | .next t => runAll rest t
    | .fault r => .fault r
    | .refused r => .refused r

/-- Host code made of commands and GUARDED regions, which may nest (R136). -/
inductive HostCode where
  | done
  | cmd (i : Instr) (rest : HostCode)
  | guarded (body rest : HostCode)
deriving DecidableEq, Repr

namespace HostCode

/-- The commands the host issues: GUARDED is `IRQDIS`, its body, `IRQEN` (R78, R136). -/
def expand : HostCode → List Instr
  | .done => []
  | .cmd i rest => i :: rest.expand
  | .guarded body rest => .irqdis :: (body.expand ++ .irqen :: rest.expand)

/-- The depth of lexical nesting of GUARDED regions (R136). -/
def depth : HostCode → Nat
  | .done => 0
  | .cmd _ rest => rest.depth
  | .guarded body rest => max (body.depth + 1) rest.depth

/-- IRQDIS and IRQEN are issued only through GUARDED (R136). -/
def onlyGuarded : HostCode → Bool
  | .done => true
  | .cmd i rest => i.isTime && rest.onlyGuarded
  | .guarded body rest => body.onlyGuarded && rest.onlyGuarded

end HostCode

/-- A sleep call of the platform made by WAIT_UNTIL, with its `u32` argument (R114, R184). -/
inductive SleepCall where
  | sleepMs (ms : Word)
  | sleepUs (us : Word)
deriving DecidableEq, Repr

/-- The `u32` a sleep is called with for the number `n`: `n` itself, and a free value where `n` is no `u32`
(R184, log entry 10). -/
def sleepArg (n : Nat) : Word := if n < 2 ^ 32 then BitVec.ofNat 32 n else Config.freeSleep n

/-- `d <- d - COARSE_TICKS` (R114): the difference, and a free value where it is no `i32` (log entry 10). -/
def remainingAfter (c : Config) (d : Int) : Int :=
  if -2 ^ 31 ≤ d - c.coarseTicks then d - c.coarseTicks else asI32 (Config.freeDelta (asU32 d) c.coarseTicks)

/-- The last sleep of WAIT_UNTIL, with `d` ticks remaining (R114): `sleep_us(d * US_PER_TICK)` if `d > 0`. -/
def fineSleep (c : Config) (d : Int) : List SleepCall :=
  if 0 < d then [.sleepUs (sleepArg (d.toNat * usPerTick c.e))] else []

/-- The sleeps of WAIT_UNTIL with `d` ticks remaining (R114), if its loop is over within `turns` tests of its
condition. -/
def waitLoop (c : Config) : (turns : Nat) → (d : Int) → Option (List SleepCall)
  | 0, _ => none
  | turns + 1, d =>
    if (c.maxChunkTicks : Int) < d then
      (waitLoop c turns (remainingAfter c d)).map (.sleepMs (sleepArg c.coarseMs) :: ·)
    else some (fineSleep c d)

/-- WAIT_UNTIL `target` (R114): one DELTA command, then the sleeps its answer asks for, if the loop is over
within `turns` tests. While `FAILED = 1` the DELTA is never answered and the host never goes on (R28). -/
def waitUntil (turns : Nat) (target : Word) (s : State) : Option (State × List SleepCall) :=
  if s.failed then none
  else
    match accept (encode (.delta target)) s with
    | .next t =>
      match t.responses.getLast? with
      | some r => (waitLoop s.cfg turns (asI32 r.data)).map fun sleeps => (t, sleeps)
      | none => none
    | .fault _ => none
    | .refused _ => none

end Sys2Proof.Machine
end

