-- ==== Sys2Proof/Safety.lean ====
section
/-! DEFINITION. What a well-kept block is (the invariants the spec states of it), what the host owes it (spec/70_reset_and_hazards.md R203 to R206), and the spec's closed reading of a POLL pass, in the terms the claims use. -/

namespace Sys2Proof.Machine

/-- `NEST` fits its register: `NEST < 2^NEST_W` (R25). -/
abbrev NestInRange (s : State) : Prop := s.nest < 2 ^ s.cfg.nestW

/-- The guard invariant: `IEN = 1` iff `NEST = 0` (R27). -/
abbrev GuardHolds (s : State) : Prop := s.ien = true ↔ s.nest = 0

/-- The pin file has one entry per slot (R30). -/
abbrev DioSized (s : State) : Prop := s.dio.length = s.cfg.numDio

/-- An unused slot keeps its reset value (R30, R152). -/
abbrev UnusedLow (s : State) : Prop := ∀ i < s.cfg.numDio, s.cfg.isUsed i = false → dioAt s i = false

/-- The field `ZERO` of `OVF` is 0 (R23). -/
abbrev ZeroClear (s : State) : Prop := zeroField s.cfg.e s.ovf = 0

/-- `FAILED = 1` exactly when `cfg_ok` is false (R28). -/
abbrev FailedIffBadConfig (s : State) : Prop := s.failed = !s.cfg.cfgOk

/-- An event a block of configuration `c` can emit: `RadioIrq` only of used slots (R31, R152),
`Fatal` only where `cfg_ok` is false (R202). -/
def eventAllowed (c : Config) : Event → Bool
  | .hwIrqDisable => true
  | .hwIrqEnable => true
  | .radioIrq i => decide (i < c.numDio) && c.isUsed i
  | .fatal => !c.cfgOk

/-- Every event of the trace is one the block can emit. -/
abbrev TraceAllowed (s : State) : Prop := ∀ ev ∈ s.trace, eventAllowed s.cfg ev = true

/-- `Fatal` stands in the trace once if the block failed, else not at all (R171). -/
abbrev FatalOnce (s : State) : Prop := s.trace.count .fatal = s.failed.toNat

/-- A failed block stands as reset left it (R211): registers at reset values, trace `[Fatal]`, no response. -/
abbrev DeadAsReset (s : State) : Prop :=
  s.failed = true →
    s.ovf = 0 ∧ s.nest = 0 ∧ s.ien = true ∧ s.dio = List.replicate s.cfg.numDio false ∧
      s.trace = [.fatal] ∧ s.responses = []

/-- What reset establishes and every step keeps. -/
abbrev Inv (s : State) : Prop :=
  NestInRange s ∧ GuardHolds s ∧ DioSized s ∧ UnusedLow s ∧ ZeroClear s ∧ FailedIffBadConfig s ∧
    TraceAllowed s ∧ FatalOnce s ∧ DeadAsReset s

/-- A step is safe: it has a next state. -/
abbrev StepSafe (s : State) : Prop := ∃ t, step s = .next t

/-- Pairing and depth (R205, R206): from depth `d`, no IRQEN at depth 0 and no IRQDIS at `2^w - 1`. -/
def pairedFrom (w : Nat) : (d : Nat) → List Instr → Bool
  | _, [] => true
  | d, .irqdis :: rest => decide (d + 1 < 2 ^ w) && pairedFrom w (d + 1) rest
  | 0, .irqen :: _ => false
  | d + 1, .irqen :: rest => pairedFrom w d rest
  | d, .ticks :: rest => pairedFrom w d rest
  | d, .delta _ :: rest => pairedFrom w d rest
  | d, .chkdl _ :: rest => pairedFrom w d rest

/-- The depth after a paired sequence. -/
def depthAfter : (d : Nat) → List Instr → Nat
  | d, [] => d
  | d, .irqdis :: rest => depthAfter (d + 1) rest
  | d, .irqen :: rest => depthAfter (d - 1) rest
  | d, .ticks :: rest => depthAfter d rest
  | d, .delta _ :: rest => depthAfter d rest
  | d, .chkdl _ :: rest => depthAfter d rest

/-- How often a paired sequence brings the depth from 1 to 0: its top-level IRQENs (R12, R132). -/
def topLevelEnables : (d : Nat) → List Instr → Nat
  | _, [] => 0
  | d, .irqdis :: rest => topLevelEnables (d + 1) rest
  | d, .irqen :: rest => (if d = 1 then 1 else 0) + topLevelEnables (d - 1) rest
  | d, .ticks :: rest => topLevelEnables d rest
  | d, .delta _ :: rest => topLevelEnables d rest
  | d, .chkdl _ :: rest => topLevelEnables d rest

/-- The sampling bound (R203): true time never decreases, and from `last` on every sample comes at
most `2^31` microseconds after the one before it. -/
def SampledInTime : (last : Nat) → List Nat → Prop
  | _, [] => True
  | last, t :: rest => last ≤ t ∧ t ≤ last + 2 ^ 31 ∧ SampledInTime t rest

/-- What the raw counter of offset `t0` reads at true time `t` (R60). -/
def rawAt (t0 t : Nat) : Word := BitVec.ofNat 32 (t0 + t)

/-- The wraps that a first sample misses (R94): 1 if the counter started in its upper half and the
first sample falls after its first wrap, else 0. -/
def missedWraps (t0 : Nat) (times : List Nat) : Nat :=
  if 2 ^ 31 ≤ t0 ∧ 2 ^ 32 ≤ t0 + times.headD 0 then 1 else 0

/-- The true distance `d`, in ticks, lies in the validity window (R112, R204). -/
abbrev InWindow (d : Int) : Prop := -2 ^ 31 ≤ d ∧ d ≤ 2 ^ 31 - 1

/-- The result a time command gives for the tick value `t` of its step (R91, R110, R111). -/
def answerData : Instr → (t : Word) → Word
  | .ticks, t => t
  | .delta target, t => target - t
  | .chkdl target, t => if (target - t).toInt ≤ 0 then 1 else 0
  | .irqdis, _ => 0
  | .irqen, _ => 0

/-- The level slot `i` holds after a pass over `s` (R154): the sampled one if the slot is used. -/
def polledLevel (s : State) (i : Nat) : Bool := if s.cfg.isUsed i then pinSample s i else dioAt s i

/-- The pin file after a pass over `s` (R154). -/
def polledDio (s : State) : List Bool := (List.range s.cfg.numDio).map (polledLevel s)

/-- What is left of the levels to come after a pass over `s`: one is used up for each used slot (R61). -/
def polledPins (s : State) : List (List Bool) :=
  s.pinIn.mapIdx fun i levels => if s.cfg.isUsed i then levels.tail else levels

/-- The events of a pass over `s`: one per rising edge, in ascending slot order (R150, R153, R154). -/
def risingEvents (s : State) : List Event :=
  ((List.range s.cfg.numDio).filter (risingPending s)).map .radioIrq

/-- How often a level sequence rises, from the level `prev` on (R154). -/
def risings : (prev : Bool) → List Bool → Nat
  | _, [] => 0
  | prev, l :: rest => (if l && !prev then 1 else 0) + risings l rest

/-- `n` passes: each is an IRQDIS and the IRQEN that matches it, issued at depth 0 (R151, R154). -/
def pollPasses : Nat → List Instr
  | 0 => []
  | n + 1 => .irqdis :: .irqen :: pollPasses n

/-- The word the port accepts in the next step, if it accepts one: the host's next action presents it, alone
or as a line, and the block has not failed (R8, R28). -/
def acceptedWord (s : State) : Option CmdWord :=
  if s.failed then none
  else
    match s.inputs with
    | .command w :: _ => some w
    | .line w _ :: _ => some w
    | .reset :: _ => none
    | [] => none

/-- The raw samples the next step draws from (R60): the environment's, or, for a line, the line's own (R77). -/
def stepRaws (s : State) : List Word :=
  match s.inputs with
  | .line _ d :: _ => d.raw.toList
  | .command _ :: _ => s.rawIn
  | .reset :: _ => s.rawIn
  | [] => s.rawIn

/-- The next step is a top-level IRQEN (R12, R151). -/
abbrev StepsTopLevelEnable (s : State) : Prop :=
  (∃ w, acceptedWord s = some w ∧ decode w = .command .irqen) ∧ s.nest = 1

/-- The next step is a reset (R200): the host's next action is one or, while `FAILED = 1`, one is to come. -/
abbrev StepsReset (s : State) : Prop :=
  (s.failed = true ∧ HostAction.reset ∈ s.inputs) ∨ (s.failed = false ∧ s.inputs.head? = some .reset)

/-- A command is a top-level IRQEN in state `s` (R12): it brings `NEST` from 1 to 0. -/
abbrev IsTopLevelEnable (i : Instr) (s : State) : Prop := i = .irqen ∧ s.nest = 1

end Sys2Proof.Machine
end

