-- ==== Sys2Proof/Certificates/Slice0/Obligations.lean ====
section
/-! DEFINITION. The statements about the block, for the provers. Each docstring names the rule of spec/ it formalises; where the spec marks a rule [derived] or [decision], the docstring says so. A statement holds for every configuration and for every value of the free values. -/

open Sys2Proof Sys2Proof.Machine

/-! ### Encoding -/

/-- The words the spec writes out for the five commands (R77) and for the illegal ones (95 V-X1 to V-X4) decode as it says. -/
def Obligations.WrittenWordsDecode : Prop :=
  decode 0x000000000 = .command .ticks ∧ decode 0x104000000 = .command (.delta 0x04000000) ∧
    decode 0x2000003E8 = .command (.chkdl 1000) ∧ decode 0x300000000 = .command .irqdis ∧
    decode 0x400000000 = .command .irqen ∧ decode 0x500000000 = .illegal 5 ∧
    decode 0x6FFFFFFFF = .illegal 6 ∧ decode 0x700001234 = .illegal 7 ∧ decode 0x0FFFFFFFF = .command .ticks

/-- Decode and encode agree on every command, every operand at every value; and a decoded word is the encoding of its
command, but for the `ARG` of a command that ignores it (R70, R72, R73, R75; R79: the identity on canonical words). -/
def Obligations.DecodeAndEncodeAgree : Prop :=
  (∀ i : Instr, decode (encode i) = .command i) ∧
    (∀ (w : CmdWord) (i : Instr), decode w = .command i →
      encode i = w ∨ ((i = .ticks ∨ i = .irqdis ∨ i = .irqen) ∧ encode i = cmdWord (opField w) 0))

/-- R73's masks and matches: a row of the opcode map selects a word exactly when the word decodes to that row's
command; R74: every word is one of the five commands or illegal, and illegal exactly for `OP` 5, 6 and 7. -/
def Obligations.OpcodeMapMatchesDecoder : Prop :=
  (∀ (w : CmdWord) (r : OpcodeRow), r ∈ opcodeMap →
      (r.selects w = true ↔ ∃ i, decode w = .command i ∧ i.mnemonic = r.mnemonic)) ∧
    (∀ w : CmdWord, (∃ i, decode w = .command i) ↔ (opField w).toNat < 5) ∧
    (∀ w : CmdWord, decode w = .illegal (opField w) ↔ 5 ≤ (opField w).toNat)

/-- R75: the `ARG` of TICKS, IRQDIS and IRQEN is ignored, the canonical encoding has `ARG = 0`, and no other bit of the
command word is a don't-care bit or a must-be-zero bit (the spec's own decision D5). -/
def Obligations.IgnoredArgIsTheOnlyFreedom : Prop :=
  (∀ (arg : Word) (s : State), accept (cmdWord 0 arg) s = exec .ticks s ∧ accept (cmdWord 3 arg) s = exec .irqdis s ∧
      accept (cmdWord 4 arg) s = exec .irqen s) ∧
    (encode .ticks = cmdWord 0 0 ∧ encode .irqdis = cmdWord 3 0 ∧ encode .irqen = cmdWord 4 0) ∧
    (∀ (w w' : CmdWord) (i : Instr), decode w = .command i → decode w' = .command i →
      w = w' ∨ (opField w = opField w' ∧ (i = .ticks ∨ i = .irqdis ∨ i = .irqen))) ∧
    (∀ (op : BitVec 3) (arg : Word), op.toNat < 5 → ∃ i, decode (cmdWord op arg) = .command i)

/-- R71's layout: `ERR` is bit 32 of the response word, `DATA` bits 31:0, and nothing is lost. -/
def Obligations.ResponseWordLayout : Prop :=
  ∀ r r' : Response, (rspWord r).getLsbD 32 = r.err ∧ (rspWord r).extractLsb' 0 32 = r.data ∧
    (rspWord r = rspWord r' → r = r')

/-- The assembler (R77) reads the text of every command, at every operand, back as that command: the disassembler's
text (R79) for its canonical word, that text with an annotation `raw=` of any value, and the source's own spelling of
the command. How blanks and digits are written, and that a call has no blank in it, is the model's choice (log entry
14). -/
def Obligations.AssemblerReadsDisassembly : Prop :=
  (∀ i : Instr, disassemble (encode i) = instrText i ∧ assembleLine (instrText i) = some ⟨some i, ⟨none, []⟩⟩ ∧
      assemble (instrText i) = some (encode i)) ∧
    (∀ (i : Instr) (raw : Word),
      assembleLine (instrText i ++ " raw=".toList ++ hexNumber raw) = some ⟨some i, ⟨some raw, []⟩⟩) ∧
    (∀ i : Instr, assemble (sourceText i) = some (encode i))

/-! ### The step and the command port -/

/-- R8: while the block accepts commands, one step executes the host's next command, and nothing else: the step is
`exec` of the decoded command at the state in which the word is taken. For a command presented as a line of assembler
text (R77) that state draws what the line's annotations name, and the environment's own samples and levels stand
afterwards as before (log entry 20). -/
def Obligations.StepExecutesNextCommand : Prop :=
  (∀ (s : State) (w : CmdWord) (rest : List HostAction) (i : Instr), s.failed = false → s.inputs = .command w :: rest →
      decode w = .command i → step s = exec i { s with inputs := rest }) ∧
    (∀ (s : State) (w : CmdWord) (d : Draws) (rest : List HostAction) (i : Instr), s.failed = false →
      s.inputs = .line w d :: rest → decode w = .command i →
      step s =
        match exec i { s with inputs := rest, rawIn := d.raw.toList,
                              pinIn := (List.range s.cfg.numDio).map fun k => (d.pins.lookup k).toList } with
        | .next t => .next { t with rawIn := s.rawIn, pinIn := s.pinIn }
        | .fault f => .fault f
        | .refused r => .refused r)

/-- R57: commands run in issue order, each in the state the earlier ones left: the machine run on a queue of encoded
commands is the commands one after the other, up to the same state, fault or refusal. -/
def Obligations.QueuedCommandsRunInOrder : Prop :=
  ∀ (s : State) (is : List Instr) (rest : List HostAction), s.failed = false →
    Host.Core.run core is.length { s with inputs := is.map (fun i => .command (encode i)) ++ rest } =
      runAll is { s with inputs := rest }

/-- R173: a word with `OP` 5, 6 or 7 is answered `ERR = 1`, `DATA = 0`; no register changes, no input is sampled, no
event is emitted (the spec's own decision D4). -/
def Obligations.IllegalOpcodeIsRefusedInBand : Prop :=
  ∀ (s : State) (w : CmdWord) (rest : List HostAction), s.failed = false →
    (s.inputs = .command w :: rest ∨ ∃ d, s.inputs = .line w d :: rest) → 5 ≤ (opField w).toNat →
    step s = .next { s with inputs := rest, responses := s.responses ++ [⟨true, 0⟩] }

/-- R71: an accepted command that ends in a next state gives exactly one response, `ERR = 1` exactly for an illegal
word, and `DATA` as the command's row says. -/
def Obligations.OneResponsePerAcceptedCommand : Prop :=
  ∀ (s t : State) (w : CmdWord), acceptedWord s = some w → step s = .next t →
    ∃ r : Response, t.responses = s.responses ++ [r] ∧ (r.err = true ↔ 5 ≤ (opField w).toNat) ∧
      (r.err = true → r.data = 0) ∧
      (∀ i, decode w = .command i → r.data = answerData i (tickStep { s with rawIn := stepRaws s }).1)

/-- R170, R172, R174: a step faults exactly on nesting misuse (IRQEN at `NEST = 0`, IRQDIS with no room left), under the
name of that misuse; no step is refused. -/
def Obligations.FaultsExactlyOnNestingMisuse : Prop :=
  (∀ (s : State) (f : Fault), step s = .fault f ↔
      ∃ w, acceptedWord s = some w ∧
        ((decode w = .command .irqen ∧ s.nest = 0 ∧ f = .nestUnderflow) ∨
          (decode w = .command .irqdis ∧ 2 ^ s.cfg.nestW ≤ s.nest + 1 ∧ f = .nestOverflow))) ∧
    (∀ (s : State) (r : Refusal), step s ≠ .refused r)

/-- R28: `FAILED` is written by reset only, which sets it exactly when `cfg_ok` is false; while it is set no command is
accepted or answered, for ever, unless a reset comes, and then the reset happens. That the wait is a step to the same
state, and that commands ahead of the reset are dropped unanswered, is the model's choice (log entry 4). -/
def Obligations.FailedBlockAcceptsNothing : Prop :=
  (∀ (s : State) (k : Nat), s.failed = true → HostAction.reset ∉ s.inputs → Host.Core.run core k s = .next s) ∧
    (∀ s t : State, HostAction.reset ∉ s.inputs → step s = .next t → t.failed = s.failed) ∧
    (∀ (s : State) (waiting rest : List HostAction), s.failed = true → HostAction.reset ∉ waiting →
      s.inputs = waiting ++ .reset :: rest → step s = .next (restart { s with inputs := rest })) ∧
    (∀ c : Config, (State.resetOf c).failed = !c.cfgOk) ∧ (∀ s : State, (restart s).failed = !s.cfg.cfgOk)

/-- R31: between resets the event trace only grows, at its end. -/
def Obligations.TraceOnlyGrows : Prop :=
  ∀ s t : State, HostAction.reset ∉ s.inputs → step s = .next t → s.trace <+: t.trace

/-! ### TickClock -/

/-- R90, R91: TICKS decodes from `OP = 0`; in every state it executes tick_step once, answers the tick value computed
from the new `OVF`, and changes `OVF` and nothing else of the block. (That the addition wraps modulo 2^8 is the spec's
decision D7, in R90.) -/
def Obligations.TicksResult : Prop :=
  ∀ (s : State) (arg : Word),
    decode (cmdWord 0 arg) = .command .ticks ∧
      (let raw := rawSample s
       let sc := raw >>> s.cfg.e
       let msb : Byte := sc.extractLsb' 24 8
       let add := (msb ^^^ s.ovf) &&& (1#8 <<< (7 - s.cfg.e))
       let ovf := s.ovf + add
       exec .ticks s =
        .next { s with ovf := ovf, rawIn := s.rawIn.tail, rawDraws := s.rawDraws + 1,
                       responses := s.responses ++ [⟨false, sc ||| (ovf.setWidth 32 <<< 24)⟩] })

/-- R92 (derived by the spec from R90 and R23), for each command that samples: after the step `SEAM` is bit 31 of the
sample; `OVF` is unchanged if the seam bits agree; a rise sets `SEAM` and keeps `EXT`; a fall clears it by carry and adds
one to `EXT` modulo `2^E`. -/
def Obligations.SeamUpdateCases : Prop :=
  ∀ (s : State) (i : Instr), i.isTime = true →
    ∃ t, exec i s = .next t ∧
      (let e := s.cfg.e
       let sOld := seamField e s.ovf
       let sNew := (rawSample s).getLsbD 31
       seamField e t.ovf = sNew ∧ zeroField e t.ovf = zeroField e s.ovf ∧
         (sOld = sNew → t.ovf = s.ovf) ∧
         (sOld = false → sNew = true → t.ovf = s.ovf + seamMask e ∧ extField e t.ovf = extField e s.ovf) ∧
         (sOld = true → sNew = false →
           t.ovf = s.ovf + seamMask e ∧ extField e t.ovf = (extField e s.ovf + 1) % 2 ^ e))

/-- R93 (derived by the spec), with the field `ZERO` clear (an invariant: KeptInvariant): TICKS answers
`t = scaled + EXT * 2^(32-E)`, whose low bits are the raw counter's bits `31:E` and whose top `E` bits are `EXT`. -/
def Obligations.TickValueStructure : Prop :=
  ∀ s : State, ZeroClear s →
    ∃ (t : State) (v : Word), exec .ticks s = .next t ∧ t.responses = s.responses ++ [⟨false, v⟩] ∧
      v.toNat = (rawSample s).toNat / 2 ^ s.cfg.e + extField s.cfg.e t.ovf * 2 ^ (32 - s.cfg.e) ∧
      v.toNat / 2 ^ (32 - s.cfg.e) = extField s.cfg.e t.ovf ∧
      v.toNat % 2 ^ (32 - s.cfg.e) = (rawSample s).toNat / 2 ^ s.cfg.e

/-- R94 (derived by the spec). Exactness: from `OVF = 0x00`, if the samples come within the sampling bound from reset on,
the k-th time command answers from the tick value `floor((T0 + T) / 2^E) mod 2^32`, less `2^(32-E)` in the one case in
which the first wrap precedes the first sample. Differences: from any state with `ZERO` clear, of two consecutive samples
at most `2^31` microseconds apart the second tick value is the first plus the ticks between them, at most `2^(31-E)`. -/
def Obligations.TicksExactUnderSamplingBound : Prop :=
  (∀ (s : State) (t0 : Nat) (prog : List (Instr × Nat)) (rest : List Word),
      s.ovf = 0 → t0 < 2 ^ 32 → SampledInTime 0 (prog.map Prod.snd) → (∀ p ∈ prog, p.1.isTime = true) →
      s.rawIn = prog.map (fun p => rawAt t0 p.2) ++ rest →
      ∃ t, runAll (prog.map Prod.fst) s = .next t ∧
        t.responses = s.responses ++ prog.map (fun p =>
          ⟨false, answerData p.1 (BitVec.ofNat 32
            ((t0 + p.2) / 2 ^ s.cfg.e - missedWraps t0 (prog.map Prod.snd) * 2 ^ (32 - s.cfg.e)))⟩)) ∧
    (∀ (s : State) (raw gap : Nat) (rest : List Word), ZeroClear s → raw < 2 ^ 32 → gap ≤ 2 ^ 31 →
      s.rawIn = BitVec.ofNat 32 raw :: BitVec.ofNat 32 (raw + gap) :: rest →
      ∃ (t : State) (t1 t2 : Word) (k : Nat), runAll [.ticks, .ticks] s = .next t ∧
        t.responses = s.responses ++ [⟨false, t1⟩, ⟨false, t2⟩] ∧ t2 = t1 + BitVec.ofNat 32 k ∧
        k = (raw + gap) / 2 ^ s.cfg.e - raw / 2 ^ s.cfg.e ∧ k ≤ 2 ^ (31 - s.cfg.e))

/-- R95, the documented limitation, kept as it is: with `E = 6`, a sample at `0xFFFFFFFF` and the next one `2^31 + 1`
microseconds later lose a wrap, and the tick value goes back from `0x03FFFFFF` to `0x02000000`. -/
def Obligations.LongGapLosesWrap : Prop :=
  ∀ (s : State) (rest : List Word), s.cfg.e = 6 → s.ovf = 0 → s.rawIn = 0xFFFFFFFF :: 0x80000000 :: rest →
    (0x80000000 : Word) = 0xFFFFFFFF + BitVec.ofNat 32 (2 ^ 31 + 1) ∧
      runAll [.ticks, .ticks] s =
        .next { s with ovf := 0x02, rawIn := rest, rawDraws := s.rawDraws + 2,
                       responses := s.responses ++ [⟨false, 0x03FFFFFF⟩, ⟨false, 0x02000000⟩] }

/-- R55, R91 (corner case): a second time command with the same raw sample leaves `OVF` as the first left it, and a
second TICKS answers the same value. -/
def Obligations.SameSampleChangesNothing : Prop :=
  ∀ (s : State) (i j : Instr) (raw : Word) (rest : List Word), i.isTime = true → j.isTime = true →
    s.rawIn = raw :: raw :: rest →
    ∃ (t u : State) (v : Word), exec i s = .next t ∧ exec j t = .next u ∧ u.ovf = t.ovf ∧
      t.responses = s.responses ++ [⟨false, answerData i v⟩] ∧ u.responses = t.responses ++ [⟨false, answerData j v⟩]

/-! ### DeadlineOps -/

/-- R110: DELTA decodes from `OP = 1` with `target = ARG`; in every state it executes tick_step once (`OVF` becomes what
TICKS would leave) and answers `target -_32 t`, read as the signed distance modulo 2^32; it changes nothing else. -/
def Obligations.DeltaResult : Prop :=
  ∀ (s : State) (target : Word),
    decode (cmdWord 1 target) = .command (.delta target) ∧
      ∃ (u : State) (t d : Word), exec .ticks s = .next u ∧ u.responses = s.responses ++ [⟨false, t⟩] ∧
        exec (.delta target) s =
          .next { s with ovf := u.ovf, rawIn := s.rawIn.tail, rawDraws := s.rawDraws + 1,
                         responses := s.responses ++ [⟨false, d⟩] } ∧
        d.toNat = (target.toNat + (2 ^ 32 - t.toNat)) % 2 ^ 32 ∧
        asI32 d = ((target.toNat : Int) - t.toNat).bmod (2 ^ 32)

/-- R111: CHKDL decodes from `OP = 2` with `target = ARG`; in every state it executes tick_step once and answers 1 if the
signed distance `target - t` is 0 or negative, else 0 (equivalently: `target -_32 t` is 0 or has bit 31 set); it changes
`OVF` and nothing else. -/
def Obligations.ChkdlResult : Prop :=
  ∀ (s : State) (target : Word),
    decode (cmdWord 2 target) = .command (.chkdl target) ∧
      ∃ (u : State) (t d : Word), exec .ticks s = .next u ∧ u.responses = s.responses ++ [⟨false, t⟩] ∧
        exec (.chkdl target) s =
          .next { s with ovf := u.ovf, rawIn := s.rawIn.tail, rawDraws := s.rawDraws + 1,
                         responses := s.responses ++ [⟨false, d⟩] } ∧
        (d = 1 ↔ ((target.toNat : Int) - t.toNat).bmod (2 ^ 32) ≤ 0) ∧
        (d = 1 ↔ target - t = 0 ∨ (target - t).getLsbD 31 = true) ∧ (d = 0 ∨ d = 1)

/-- R113 (derived by the spec), all four items: with equal samples `DELTA(t1 + k) = k`; `DELTA(t1) <= 0` whenever the
next tick value is later by fewer than 2^31 ticks; CHKDL is 1 iff DELTA is not positive, and, within the window, iff the
target is reached; `DELTA(a) - DELTA(b) = a - b` for one sample. -/
def Obligations.DeltaIdentities : Prop :=
  (∀ (t1 : Word) (k : Int), InWindow k → asI32 (answerData (.delta (t1 + BitVec.ofInt 32 k)) t1) = k) ∧
    (∀ t1 t2 : Word, (t2 - t1).toNat < 2 ^ 31 → asI32 (answerData (.delta t1) t2) ≤ 0) ∧
    (∀ target t : Word, answerData (.chkdl target) t = 1 ↔ asI32 (answerData (.delta target) t) ≤ 0) ∧
    (∀ (t : Word) (d : Int), InWindow d → (answerData (.chkdl (t + BitVec.ofInt 32 d)) t = 1 ↔ d ≤ 0)) ∧
    (∀ a b t : Word, answerData (.delta a) t - answerData (.delta b) t = a - b) ∧
    (∀ (s : State) (i : Instr), i.isTime = true → ∃ (u t : State) (v : Word), exec .ticks s = .next u ∧
      u.responses = s.responses ++ [⟨false, v⟩] ∧ exec i s = .next t ∧
      t.responses = s.responses ++ [⟨false, answerData i v⟩])

/-- R112, R204: let now be tick `n` of true time and the target `d` ticks away. Inside the window DELTA answers `d`;
a target 2^31 to 2^32 - 1 ticks ahead reads as passed, one 2^31 + 1 to 2^32 - 1 ticks behind reads as future. -/
def Obligations.DeadlineWindow : Prop :=
  ∀ (s u : State) (n d : Int) (t : Word), exec .ticks s = .next u → u.responses = s.responses ++ [⟨false, t⟩] →
    t = BitVec.ofInt 32 n →
    ∃ (v : State) (r : Word), exec (.delta (BitVec.ofInt 32 (n + d))) s = .next v ∧
      v.responses = s.responses ++ [⟨false, r⟩] ∧
      (InWindow d → asI32 r = d) ∧ (2 ^ 31 ≤ d → d < 2 ^ 32 → asI32 r < 0) ∧
      (-2 ^ 32 < d → d < -2 ^ 31 → 0 < asI32 r)

/-! ### IrqNestingGuard -/

/-- R130, R134: IRQDIS decodes from `OP = 3`; with room in the counter it emits `HwIrqDisable`, clears `IEN`, adds one to
`NEST`, answers 0 and changes nothing else, at every depth; at `2^NEST_W - 1` it is `NestOverflow` (as R130 writes it;
that this is a model fault is the spec's decision D10). -/
def Obligations.IrqdisResult : Prop :=
  ∀ (s : State) (arg : Word),
    decode (cmdWord 3 arg) = .command .irqdis ∧
      (s.nest + 1 < 2 ^ s.cfg.nestW →
        exec .irqdis s =
          .next { s with ien := false, nest := s.nest + 1, trace := s.trace ++ [.hwIrqDisable],
                         responses := s.responses ++ [⟨false, 0⟩] }) ∧
      (s.nest = 2 ^ s.cfg.nestW - 1 → exec .irqdis s = .fault .nestOverflow)

/-- R131, R133, R150: IRQEN decodes from `OP = 4`. From `NEST >= 2` it only decrements. From `NEST = 1` (with the pin
file of its size, an invariant) it emits `HwIrqEnable`, sets `IEN`, and runs one POLL: every used slot takes the sampled
level, every rising edge emits `RadioIrq`, in ascending order. At `NEST = 0` it is `NestUnderflow` (as R131 writes it;
that this is a model fault is the spec's decision D9). -/
def Obligations.IrqenResult : Prop :=
  ∀ (s : State) (arg : Word),
    decode (cmdWord 4 arg) = .command .irqen ∧
      (2 ≤ s.nest → exec .irqen s = .next { s with nest := s.nest - 1, responses := s.responses ++ [⟨false, 0⟩] }) ∧
      (s.nest = 1 → DioSized s →
        exec .irqen s =
          .next { s with nest := 0, ien := true, dio := polledDio s, pinIn := polledPins s,
                         pollCount := s.pollCount + 1, trace := s.trace ++ .hwIrqEnable :: risingEvents s,
                         responses := s.responses ++ [⟨false, 0⟩] }) ∧
      (s.nest = 0 → exec .irqen s = .fault .nestUnderflow)

/-- R27: `IEN = 1` iff `NEST = 0`: at reset of every configuration, and after every step that has a next state. -/
def Obligations.GuardInvariantKept : Prop :=
  (∀ c : Config, GuardHolds (State.resetOf c)) ∧
    (∀ s t : State, GuardHolds s → step s = .next t → GuardHolds t)

/-- R132 (derived by the spec). First: from `NEST = 0`, `n` IRQDIS then `n` IRQEN, with time commands anywhere among
them: after each prefix the run has gone on, `NEST` is what is unmatched, the trace holds one `HwIrqDisable` per IRQDIS
and nothing more until the `n`-th IRQEN, which adds one `HwIrqEnable` and then the events of one POLL; `IEN` is 0 from the
first IRQDIS to just before that. Second: any balanced sequence gives one `HwIrqEnable` and one POLL per return to depth
0 and ends at `NEST = 0`, `IEN = 1`. -/
def Obligations.NestingReenablesOnce : Prop :=
  (∀ (s : State) (n : Nat) (is p : List Instr), s.nest = 0 → 1 ≤ n → n ≤ 2 ^ s.cfg.nestW - 1 →
      is.filter (fun i => !i.isTime) = List.replicate n .irqdis ++ List.replicate n .irqen → p <+: is →
      ∃ (t : State) (slots : List Nat), runAll p s = .next t ∧ t.nest = p.count .irqdis - p.count .irqen ∧
        t.trace = s.trace ++ List.replicate (p.count .irqdis) .hwIrqDisable ++
          (if p.count .irqen = n then .hwIrqEnable :: slots.map .radioIrq else []) ∧
        t.pollCount = s.pollCount + (if p.count .irqen = n then 1 else 0) ∧
        (1 ≤ p.count .irqdis → t.ien = decide (p.count .irqen = n))) ∧
    (∀ (s : State) (is : List Instr), GuardHolds s → s.nest = 0 → pairedFrom s.cfg.nestW 0 is = true →
      depthAfter 0 is = 0 →
      ∃ t, runAll is s = .next t ∧ t.nest = 0 ∧ t.ien = true ∧
        t.trace.count .hwIrqEnable = s.trace.count .hwIrqEnable + topLevelEnables 0 is ∧
        t.pollCount = s.pollCount + topLevelEnables 0 is)

/-- R205, R206, R174: a sequence of commands runs to its end, at the depth its pairing gives, exactly when it keeps the
pairing and the depth obligations; otherwise it ends in a fault. -/
def Obligations.PairedCommandsComplete : Prop :=
  ∀ (s : State) (is : List Instr),
    (pairedFrom s.cfg.nestW s.nest is = true → ∃ t, runAll is s = .next t ∧ t.nest = depthAfter s.nest is) ∧
      (pairedFrom s.cfg.nestW s.nest is = false → ∃ f, runAll is s = .fault f)

/-- R136: host code that issues IRQDIS and IRQEN only through GUARDED never misuses the guard: with room for its lexical
depth it runs to its end, and `NEST` is what it was. -/
def Obligations.GuardedCodeKeepsPairing : Prop :=
  ∀ (s : State) (code : HostCode), code.onlyGuarded = true → s.nest + code.depth < 2 ^ s.cfg.nestW →
    pairedFrom s.cfg.nestW s.nest code.expand = true ∧ ∃ t, runAll code.expand s = .next t ∧ t.nest = s.nest

/-! ### PinEventPoller -/

/-- R151: POLL runs exactly once in the step of a top-level IRQEN, its events after `HwIrqEnable`, and at no other time:
no other command runs it, no illegal word, no wait, no reset. Where it does not run, the pin file, the levels to come
and the `RadioIrq` events are untouched; a reset only restores them. That a POLL is counted by `pollCount` is the
model's choice (log entry 5). -/
def Obligations.PollOnlyInTopLevelIrqen : Prop :=
  (∀ (s t : State) (i : Instr), exec i s = .next t →
      (IsTopLevelEnable i s → t.pollCount = s.pollCount + 1) ∧
        (¬ IsTopLevelEnable i s → t.pollCount = s.pollCount ∧ t.dio = s.dio ∧ t.pinIn = s.pinIn ∧
          ∀ k, t.trace.count (.radioIrq k) = s.trace.count (.radioIrq k))) ∧
    (∀ s t : State, step s = .next t →
      (StepsTopLevelEnable s → t.pollCount = s.pollCount + 1 ∧
          ∃ slots : List Nat, t.trace = s.trace ++ .hwIrqEnable :: slots.map .radioIrq) ∧
        (¬ StepsTopLevelEnable s → t.pollCount = s.pollCount ∧ t.pinIn = s.pinIn ∧
          ((t.dio = s.dio ∧ ∀ k, t.trace.count (.radioIrq k) = s.trace.count (.radioIrq k)) ∨
            (StepsReset s ∧ t.dio = List.replicate s.cfg.numDio false ∧ ∀ k, .radioIrq k ∉ t.trace))))

/-- R152: an unused slot is never sampled, its `DIO[i]` never written, and it never produces an event, whatever levels
are wired to it. -/
def Obligations.UnusedSlotIsNeverTouched : Prop :=
  ∀ (s t : State) (i : Instr) (k : Nat), DioSized s → s.cfg.isUsed k = false → exec i s = .next t →
    dioAt t k = dioAt s k ∧ t.pinIn.getD k [] = s.pinIn.getD k [] ∧
      t.trace.count (.radioIrq k) = s.trace.count (.radioIrq k)

/-- R153, R178 (the spec's own decision D14): the events a top-level IRQEN adds are `HwIrqEnable` first, then `RadioIrq`
events in ascending slot order, no slot twice. -/
def Obligations.PassEventsAscend : Prop :=
  ∀ s : State, DioSized s → s.nest = 1 →
    ∃ (t : State) (slots : List Nat), exec .irqen s = .next t ∧ slots.Pairwise (· < ·) ∧
      t.trace = s.trace ++ .hwIrqEnable :: slots.map .radioIrq ∧
      (∀ i, i ∈ slots ↔ s.cfg.isUsed i = true ∧ dioAt s i = false ∧ dioAt t i = true)

/-- R154 (derived by the spec): for one used slot with levels `l_1, l_2, ...` to come, after pass `k` `DIO[i] = l_k`, pass
`k` emits `RadioIrq(i)` iff `l_(k-1)` is false and `l_k` true (with `l_0` the level stored before), and all passes together
emit it once per rise. -/
def Obligations.EdgeDetectionSequence : Prop :=
  ∀ (s : State) (i : Nat) (levels rest : List Bool), DioSized s → s.nest = 0 → s.cfg.isUsed i = true →
    s.pinIn.getD i [] = levels ++ rest →
    (∀ k l, levels[k]? = some l →
      ∃ t u, runAll (pollPasses k) s = .next t ∧ runAll (pollPasses 1) t = .next u ∧ dioAt u i = l ∧
        u.trace.count (.radioIrq i) = t.trace.count (.radioIrq i) +
          (if l && !(dioAt s i :: levels).getD k false then 1 else 0)) ∧
      ∃ t, runAll (pollPasses levels.length) s = .next t ∧
        t.trace.count (.radioIrq i) = s.trace.count (.radioIrq i) + risings (dioAt s i) levels

/-- R155 (derived by the spec): a used pin that is already high when the first POLL after reset runs produces a
`RadioIrq` in that pass. -/
def Obligations.HighAtStartIsRisingEdge : Prop :=
  ∀ (c : Config) (pins : List (List Bool)) (i : Nat), c.isUsed i = true → (pins.getD i []).head? = some true →
    ∃ t, runAll (pollPasses 1) { State.resetOf c with pinIn := pins } = .next t ∧ .radioIrq i ∈ t.trace ∧
      dioAt t i = true

/-! ### Reset, invariants, frames -/

/-- R200, R202, R35: a reset gives every register its reset value, whatever the state (`OVF` 0x00 is the spec's decision
D6), checks `cfg_ok`, emits `Fatal` exactly if the check fails, samples nothing and runs no POLL. That the environment's
queues go on is the model's choice (log entry 17). -/
def Obligations.ResetRestoresEverything : Prop :=
  ∀ (s : State) (rest : List HostAction), s.inputs = .reset :: rest →
    step s = .next { cfg := s.cfg, ovf := 0x00, nest := 0, ien := true, dio := List.replicate s.cfg.numDio false,
                     failed := !s.cfg.cfgOk, trace := if s.cfg.cfgOk then [] else [.fatal], responses := [],
                     inputs := rest, rawIn := s.rawIn, pinIn := s.pinIn, rawDraws := s.rawDraws,
                     pollCount := s.pollCount }

/-- R201, R96: an instance exists exactly for `0 < E < 8`, `NEST_W >= 1` and positive wait constants, and it has the
parameters it was built with. -/
def Obligations.InstanceNeedsLegalParameters : Prop :=
  ∀ p : Params,
    ((∃ c, p.build = some c) ↔ (0 < p.e ∧ p.e < 8) ∧ 1 ≤ p.nestW ∧
        0 < p.maxChunkTicks ∧ 0 < p.coarseMs ∧ 0 < p.coarseTicks) ∧
      (∀ c, p.build = some c → c.e = p.e ∧ c.used = p.used ∧ c.cfgOk = p.cfgOk ∧ c.nestW = p.nestW ∧
        c.maxChunkTicks = p.maxChunkTicks ∧ c.coarseMs = p.coarseMs ∧ c.coarseTicks = p.coarseTicks)

/-- Reset of every configuration meets the invariant: `NEST` in range (R25), the guard invariant (R27), the pin file of
its size with unused slots low (R30), `ZERO` clear (R23), `FAILED` as R28 says, the trace within its alphabet (R31) with
`Fatal` at most once (R171), a failed block as reset left it (R211). -/
def Obligations.ResetMeetsInvariant : Prop := (∀ c : Config, Inv (State.resetOf c)) ∧ Inv State.reset

/-- Every step that has a next state keeps the invariant, from every state that meets it, of every configuration. -/
def Obligations.KeptInvariant : Prop := ∀ s t : State, Inv s → step s = .next t → Inv t

/-- R22, R25, R26, R28, R29, R30: each register is written by its commands only. `OVF`: the time commands; `NEST`: IRQDIS
and IRQEN; `IEN` and the trace: IRQDIS and a top-level IRQEN; `DIO`: a top-level IRQEN; `FAILED`, the configuration and
the host's actions: no command. A time command takes exactly one raw sample, a guard command none, and only a top-level
IRQEN takes levels. -/
def Obligations.RegistersWrittenByTheirCommandsOnly : Prop :=
  ∀ (s t : State) (i : Instr), exec i s = .next t →
    (t.cfg = s.cfg ∧ t.failed = s.failed ∧ t.inputs = s.inputs) ∧
      (i.isTime = false → t.ovf = s.ovf ∧ t.rawIn = s.rawIn ∧ t.rawDraws = s.rawDraws) ∧
      (i.isTime = true → t.nest = s.nest ∧ t.rawDraws = s.rawDraws + 1 ∧ t.rawIn = s.rawIn.tail) ∧
      (i ≠ .irqdis → ¬ IsTopLevelEnable i s → t.ien = s.ien ∧ t.trace = s.trace) ∧
      (¬ IsTopLevelEnable i s → t.dio = s.dio ∧ t.pinIn = s.pinIn ∧ t.pollCount = s.pollCount)

/-- R182, R91: time commands are "callable from any context": what they answer, and what they leave in `OVF`, is the same
in two blocks that agree on configuration, `OVF` and raw samples, whatever their guard, pins and traces hold. -/
def Obligations.AnswersDependOnClockOnly : Prop :=
  ∀ (s u : State) (is : List Instr), (∀ i ∈ is, i.isTime = true) → s.cfg = u.cfg → s.ovf = u.ovf →
    s.rawIn = u.rawIn → s.rawDraws = u.rawDraws →
    ∃ (t v : State) (answers : List Response), runAll is s = .next t ∧ runAll is u = .next v ∧ t.ovf = v.ovf ∧
      answers.length = is.length ∧ t.responses = s.responses ++ answers ∧ v.responses = u.responses ++ answers

/-! ### Host sequences -/

/-- R114, R115 (a): WAIT_UNTIL issues exactly one command, the DELTA, and so takes one raw sample; its sleeps are those
its answer asks for, once its loop is over within the turns given it. While `FAILED = 1` it never goes on. -/
def Obligations.WaitUntilIssuesOneDelta : Prop :=
  ∀ (s : State) (target : Word) (turns : Nat),
    (s.failed = false → ∃ (t : State) (d : Word), exec (.delta target) s = .next t ∧
        t.responses = s.responses ++ [⟨false, d⟩] ∧ t.rawDraws = s.rawDraws + 1 ∧
        waitUntil turns target s = (waitLoop s.cfg turns (asI32 d)).map fun sleeps => (t, sleeps)) ∧
      (s.failed = true → waitUntil turns target s = none)

/-- R114, R115 (b), (e), for every `i32` delta. For a delta of 0 or less no sleep is called. Else, as long as the
remaining delta stays an `i32` (always for `COARSE_TICKS` up to `2^31`), there are `k` coarse sleeps of COARSE_MS, each
called while more than MAX_CHUNK_TICKS remained, then one fine sleep of `r * 2^E` for the rest `r` if `r` is positive;
the coarse sleeps overshoot the target by less than `COARSE_TICKS - MAX_CHUNK_TICKS` ticks if at all. Where an argument
is no `u32`, or the remaining delta no `i32`, the spec states no value and it is free (the model's choice, log entry
10): the call is made all the same, and the loop goes on from some `i32`. -/
def Obligations.WaitSleepsMatchDelta : Prop :=
  ∀ (c : Config) (d : Int), InWindow d →
    (d ≤ 0 → ∀ turns, 0 < turns → waitLoop c turns d = some []) ∧
      (0 < d → c.coarseTicks ≤ 2 ^ 31 → ∀ turns, d.toNat < turns →
        ∃ (k : Nat) (r : Int) (ms us : Word), r = d - k * c.coarseTicks ∧ r ≤ c.maxChunkTicks ∧
          (∀ j < k, (c.maxChunkTicks : Int) < d - j * c.coarseTicks) ∧
          (r < 0 → -r < (c.coarseTicks : Int) - c.maxChunkTicks) ∧
          (c.coarseMs < 2 ^ 32 → ms.toNat = c.coarseMs) ∧
          (r.toNat * 2 ^ c.e < 2 ^ 32 → us.toNat = r.toNat * 2 ^ c.e) ∧
          waitLoop c turns d = some (List.replicate k (.sleepMs ms) ++ if 0 < r then [.sleepUs us] else [])) ∧
      ((c.maxChunkTicks : Int) < d → d - c.coarseTicks < -2 ^ 31 →
        ∃ (d' : Int) (ms : Word), InWindow d' ∧ (c.coarseMs < 2 ^ 32 → ms.toNat = c.coarseMs) ∧
          ∀ turns, waitLoop c (turns + 1) d = (waitLoop c turns d').map (.sleepMs ms :: ·))

/-! ### Annotated lines -/

/-- R77: the inputs a line is annotated with are those of its own step. A time command given as a line uses the sample
the line names, and a free value if it names none; a top-level IRQEN stores, for each used slot, the level the line
names, and a free value if it names none. Whatever the line's command, no annotation reaches a later step: the
environment's samples and levels stand as before. That unnamed draws are free, and the form of the queues, is the
model's choice (log entries 5, 20). -/
def Obligations.LineFixesDrawsOfItsStep : Prop :=
  ∀ (s : State) (i : Instr) (d : Draws) (rest : List HostAction), s.failed = false →
    s.inputs = .line (encode i) d :: rest →
    (i.isTime = true → ∃ t, step s = .next t ∧
        (let raw := d.raw.getD (Config.freeRaw s.rawDraws)
         t.ovf = ovfUpdate s.cfg.e raw s.ovf ∧
           t.responses = s.responses ++ [⟨false, answerData i (tickValue s.cfg.e raw t.ovf)⟩])) ∧
      (i = .irqen → s.nest = 1 → DioSized s → ∃ t, step s = .next t ∧ t.dio.length = s.cfg.numDio ∧
        ∀ k < s.cfg.numDio, dioAt t k =
          if s.cfg.isUsed k then (d.pins.lookup k).getD (Config.freePin k s.pollCount) else dioAt s k) ∧
      (∀ t, step s = .next t → t.rawIn = s.rawIn ∧ t.pinIn = s.pinIn ∧ t.inputs = rest)
end

