-- ==== Sys2Proof/Laws/Encoding.lean ====
section
/-! SUPPORT. The fields of command and response words (spec/30_encoding.md R70, R71): each reads back what was put in, and a word is its fields. -/

namespace Sys2Proof

/-- The bits of a command word: `ARG` below bit 32, `OP` above. -/
theorem getLsbD_cmdWord (op : BitVec 3) (arg : Word) (i : Nat) :
    (cmdWord op arg).getLsbD i = if i < 32 then arg.getLsbD i else op.getLsbD (i - 32) := by
  exact BitVec.getLsbD_append (x := op) (y := arg) (i := i)

@[simp] theorem opField_cmdWord (op : BitVec 3) (arg : Word) : opField (cmdWord op arg) = op := by
  apply BitVec.eq_of_getLsbD_eq
  intro i hi
  simp [opField, getLsbD_cmdWord, hi]

@[simp] theorem argField_cmdWord (op : BitVec 3) (arg : Word) : argField (cmdWord op arg) = arg := by
  apply BitVec.eq_of_getLsbD_eq
  intro i hi
  simp [argField, getLsbD_cmdWord, hi]

/-- A command word is its two fields. -/
theorem cmdWord_fields (w : CmdWord) : cmdWord (opField w) (argField w) = w := by
  apply BitVec.eq_of_getLsbD_eq
  intro i hi
  rw [getLsbD_cmdWord]
  by_cases h : i < 32
  · simp [argField, h]
  · have h3 : i - 32 < 3 := by omega
    have hsum : 32 + (i - 32) = i := by omega
    simp [opField, h, h3, hsum]

/-- The decoder by the two fields (R73, R74). -/
theorem decode_cmdWord (op : BitVec 3) (arg : Word) :
    decode (cmdWord op arg) =
      if op = 0 then .command .ticks else if op = 1 then .command (.delta arg)
      else if op = 2 then .command (.chkdl arg) else if op = 3 then .command .irqdis
      else if op = 4 then .command .irqen else .illegal op := by
  unfold decode
  rw [opField_cmdWord, argField_cmdWord]
  have hall : op = 0 ∨ op = 1 ∨ op = 2 ∨ op = 3 ∨ op = 4 ∨ op = 5 ∨ op = 6 ∨ op = 7 := by
    revert op
    decide
  rcases hall with h | h | h | h | h | h | h | h <;> subst h <;> rfl

/-- The bits of a response word: `DATA` below bit 32, `ERR` above (R71). -/
theorem getLsbD_rspWord (r : Machine.Response) (i : Nat) :
    (Machine.rspWord r).getLsbD i = if i < 32 then r.data.getLsbD i else (BitVec.ofBool r.err).getLsbD (i - 32) := by
  exact BitVec.getLsbD_append (x := BitVec.ofBool r.err) (y := r.data) (i := i)

end Sys2Proof
end

