-- ==== Sys2Proof/Laws/State.lean ====
section
/-! SUPPORT. One lemma per field per update of State, true by rfl. -/

namespace Sys2Proof.Machine.State

section emit
variable (s : State) (ev : Event)

@[simp] theorem emit_cfg : (s.emit ev).cfg = s.cfg := rfl
@[simp] theorem emit_ovf : (s.emit ev).ovf = s.ovf := rfl
@[simp] theorem emit_nest : (s.emit ev).nest = s.nest := rfl
@[simp] theorem emit_ien : (s.emit ev).ien = s.ien := rfl
@[simp] theorem emit_dio : (s.emit ev).dio = s.dio := rfl
@[simp] theorem emit_failed : (s.emit ev).failed = s.failed := rfl
@[simp] theorem emit_trace : (s.emit ev).trace = s.trace ++ [ev] := rfl
@[simp] theorem emit_responses : (s.emit ev).responses = s.responses := rfl
@[simp] theorem emit_inputs : (s.emit ev).inputs = s.inputs := rfl
@[simp] theorem emit_rawIn : (s.emit ev).rawIn = s.rawIn := rfl
@[simp] theorem emit_pinIn : (s.emit ev).pinIn = s.pinIn := rfl
@[simp] theorem emit_rawDraws : (s.emit ev).rawDraws = s.rawDraws := rfl
@[simp] theorem emit_pollCount : (s.emit ev).pollCount = s.pollCount := rfl

end emit

section respond
variable (s : State) (e : Bool) (d : Word)

@[simp] theorem respond_cfg : (s.respond e d).cfg = s.cfg := rfl
@[simp] theorem respond_ovf : (s.respond e d).ovf = s.ovf := rfl
@[simp] theorem respond_nest : (s.respond e d).nest = s.nest := rfl
@[simp] theorem respond_ien : (s.respond e d).ien = s.ien := rfl
@[simp] theorem respond_dio : (s.respond e d).dio = s.dio := rfl
@[simp] theorem respond_failed : (s.respond e d).failed = s.failed := rfl
@[simp] theorem respond_trace : (s.respond e d).trace = s.trace := rfl
@[simp] theorem respond_responses : (s.respond e d).responses = s.responses ++ [⟨e, d⟩] := rfl
@[simp] theorem respond_inputs : (s.respond e d).inputs = s.inputs := rfl
@[simp] theorem respond_rawIn : (s.respond e d).rawIn = s.rawIn := rfl
@[simp] theorem respond_pinIn : (s.respond e d).pinIn = s.pinIn := rfl
@[simp] theorem respond_rawDraws : (s.respond e d).rawDraws = s.rawDraws := rfl
@[simp] theorem respond_pollCount : (s.respond e d).pollCount = s.pollCount := rfl

end respond

section setOvf
variable (s : State) (v : Byte)

@[simp] theorem setOvf_cfg : (s.setOvf v).cfg = s.cfg := rfl
@[simp] theorem setOvf_ovf : (s.setOvf v).ovf = v := rfl
@[simp] theorem setOvf_nest : (s.setOvf v).nest = s.nest := rfl
@[simp] theorem setOvf_ien : (s.setOvf v).ien = s.ien := rfl
@[simp] theorem setOvf_dio : (s.setOvf v).dio = s.dio := rfl
@[simp] theorem setOvf_failed : (s.setOvf v).failed = s.failed := rfl
@[simp] theorem setOvf_trace : (s.setOvf v).trace = s.trace := rfl
@[simp] theorem setOvf_responses : (s.setOvf v).responses = s.responses := rfl
@[simp] theorem setOvf_inputs : (s.setOvf v).inputs = s.inputs := rfl
@[simp] theorem setOvf_rawIn : (s.setOvf v).rawIn = s.rawIn := rfl
@[simp] theorem setOvf_pinIn : (s.setOvf v).pinIn = s.pinIn := rfl
@[simp] theorem setOvf_rawDraws : (s.setOvf v).rawDraws = s.rawDraws := rfl
@[simp] theorem setOvf_pollCount : (s.setOvf v).pollCount = s.pollCount := rfl

end setOvf

section setNest
variable (s : State) (n : Nat)

@[simp] theorem setNest_cfg : (s.setNest n).cfg = s.cfg := rfl
@[simp] theorem setNest_ovf : (s.setNest n).ovf = s.ovf := rfl
@[simp] theorem setNest_nest : (s.setNest n).nest = n := rfl
@[simp] theorem setNest_ien : (s.setNest n).ien = s.ien := rfl
@[simp] theorem setNest_dio : (s.setNest n).dio = s.dio := rfl
@[simp] theorem setNest_failed : (s.setNest n).failed = s.failed := rfl
@[simp] theorem setNest_trace : (s.setNest n).trace = s.trace := rfl
@[simp] theorem setNest_responses : (s.setNest n).responses = s.responses := rfl
@[simp] theorem setNest_inputs : (s.setNest n).inputs = s.inputs := rfl
@[simp] theorem setNest_rawIn : (s.setNest n).rawIn = s.rawIn := rfl
@[simp] theorem setNest_pinIn : (s.setNest n).pinIn = s.pinIn := rfl
@[simp] theorem setNest_rawDraws : (s.setNest n).rawDraws = s.rawDraws := rfl
@[simp] theorem setNest_pollCount : (s.setNest n).pollCount = s.pollCount := rfl

end setNest

section setIen
variable (s : State) (b : Bool)

@[simp] theorem setIen_cfg : (s.setIen b).cfg = s.cfg := rfl
@[simp] theorem setIen_ovf : (s.setIen b).ovf = s.ovf := rfl
@[simp] theorem setIen_nest : (s.setIen b).nest = s.nest := rfl
@[simp] theorem setIen_ien : (s.setIen b).ien = b := rfl
@[simp] theorem setIen_dio : (s.setIen b).dio = s.dio := rfl
@[simp] theorem setIen_failed : (s.setIen b).failed = s.failed := rfl
@[simp] theorem setIen_trace : (s.setIen b).trace = s.trace := rfl
@[simp] theorem setIen_responses : (s.setIen b).responses = s.responses := rfl
@[simp] theorem setIen_inputs : (s.setIen b).inputs = s.inputs := rfl
@[simp] theorem setIen_rawIn : (s.setIen b).rawIn = s.rawIn := rfl
@[simp] theorem setIen_pinIn : (s.setIen b).pinIn = s.pinIn := rfl
@[simp] theorem setIen_rawDraws : (s.setIen b).rawDraws = s.rawDraws := rfl
@[simp] theorem setIen_pollCount : (s.setIen b).pollCount = s.pollCount := rfl

end setIen

section setDio
variable (s : State) (i : Nat) (b : Bool)

@[simp] theorem setDio_cfg : (s.setDio i b).cfg = s.cfg := rfl
@[simp] theorem setDio_ovf : (s.setDio i b).ovf = s.ovf := rfl
@[simp] theorem setDio_nest : (s.setDio i b).nest = s.nest := rfl
@[simp] theorem setDio_ien : (s.setDio i b).ien = s.ien := rfl
@[simp] theorem setDio_dio : (s.setDio i b).dio = s.dio.set i b := rfl
@[simp] theorem setDio_failed : (s.setDio i b).failed = s.failed := rfl
@[simp] theorem setDio_trace : (s.setDio i b).trace = s.trace := rfl
@[simp] theorem setDio_responses : (s.setDio i b).responses = s.responses := rfl
@[simp] theorem setDio_inputs : (s.setDio i b).inputs = s.inputs := rfl
@[simp] theorem setDio_rawIn : (s.setDio i b).rawIn = s.rawIn := rfl
@[simp] theorem setDio_pinIn : (s.setDio i b).pinIn = s.pinIn := rfl
@[simp] theorem setDio_rawDraws : (s.setDio i b).rawDraws = s.rawDraws := rfl
@[simp] theorem setDio_pollCount : (s.setDio i b).pollCount = s.pollCount := rfl

end setDio

section setInputs
variable (s : State) (l : List HostAction)

@[simp] theorem setInputs_cfg : (s.setInputs l).cfg = s.cfg := rfl
@[simp] theorem setInputs_ovf : (s.setInputs l).ovf = s.ovf := rfl
@[simp] theorem setInputs_nest : (s.setInputs l).nest = s.nest := rfl
@[simp] theorem setInputs_ien : (s.setInputs l).ien = s.ien := rfl
@[simp] theorem setInputs_dio : (s.setInputs l).dio = s.dio := rfl
@[simp] theorem setInputs_failed : (s.setInputs l).failed = s.failed := rfl
@[simp] theorem setInputs_trace : (s.setInputs l).trace = s.trace := rfl
@[simp] theorem setInputs_responses : (s.setInputs l).responses = s.responses := rfl
@[simp] theorem setInputs_inputs : (s.setInputs l).inputs = l := rfl
@[simp] theorem setInputs_rawIn : (s.setInputs l).rawIn = s.rawIn := rfl
@[simp] theorem setInputs_pinIn : (s.setInputs l).pinIn = s.pinIn := rfl
@[simp] theorem setInputs_rawDraws : (s.setInputs l).rawDraws = s.rawDraws := rfl
@[simp] theorem setInputs_pollCount : (s.setInputs l).pollCount = s.pollCount := rfl

end setInputs

section takeRaw
variable (s : State)

@[simp] theorem takeRaw_cfg : (s.takeRaw).cfg = s.cfg := rfl
@[simp] theorem takeRaw_ovf : (s.takeRaw).ovf = s.ovf := rfl
@[simp] theorem takeRaw_nest : (s.takeRaw).nest = s.nest := rfl
@[simp] theorem takeRaw_ien : (s.takeRaw).ien = s.ien := rfl
@[simp] theorem takeRaw_dio : (s.takeRaw).dio = s.dio := rfl
@[simp] theorem takeRaw_failed : (s.takeRaw).failed = s.failed := rfl
@[simp] theorem takeRaw_trace : (s.takeRaw).trace = s.trace := rfl
@[simp] theorem takeRaw_responses : (s.takeRaw).responses = s.responses := rfl
@[simp] theorem takeRaw_inputs : (s.takeRaw).inputs = s.inputs := rfl
@[simp] theorem takeRaw_rawIn : (s.takeRaw).rawIn = s.rawIn.tail := rfl
@[simp] theorem takeRaw_pinIn : (s.takeRaw).pinIn = s.pinIn := rfl
@[simp] theorem takeRaw_rawDraws : (s.takeRaw).rawDraws = s.rawDraws + 1 := rfl
@[simp] theorem takeRaw_pollCount : (s.takeRaw).pollCount = s.pollCount := rfl

end takeRaw

section takePin
variable (s : State) (i : Nat)

@[simp] theorem takePin_cfg : (s.takePin i).cfg = s.cfg := rfl
@[simp] theorem takePin_ovf : (s.takePin i).ovf = s.ovf := rfl
@[simp] theorem takePin_nest : (s.takePin i).nest = s.nest := rfl
@[simp] theorem takePin_ien : (s.takePin i).ien = s.ien := rfl
@[simp] theorem takePin_dio : (s.takePin i).dio = s.dio := rfl
@[simp] theorem takePin_failed : (s.takePin i).failed = s.failed := rfl
@[simp] theorem takePin_trace : (s.takePin i).trace = s.trace := rfl
@[simp] theorem takePin_responses : (s.takePin i).responses = s.responses := rfl
@[simp] theorem takePin_inputs : (s.takePin i).inputs = s.inputs := rfl
@[simp] theorem takePin_rawIn : (s.takePin i).rawIn = s.rawIn := rfl
@[simp] theorem takePin_pinIn : (s.takePin i).pinIn = s.pinIn.modify i List.tail := rfl
@[simp] theorem takePin_rawDraws : (s.takePin i).rawDraws = s.rawDraws := rfl
@[simp] theorem takePin_pollCount : (s.takePin i).pollCount = s.pollCount := rfl

end takePin

section countPoll
variable (s : State)

@[simp] theorem countPoll_cfg : (s.countPoll).cfg = s.cfg := rfl
@[simp] theorem countPoll_ovf : (s.countPoll).ovf = s.ovf := rfl
@[simp] theorem countPoll_nest : (s.countPoll).nest = s.nest := rfl
@[simp] theorem countPoll_ien : (s.countPoll).ien = s.ien := rfl
@[simp] theorem countPoll_dio : (s.countPoll).dio = s.dio := rfl
@[simp] theorem countPoll_failed : (s.countPoll).failed = s.failed := rfl
@[simp] theorem countPoll_trace : (s.countPoll).trace = s.trace := rfl
@[simp] theorem countPoll_responses : (s.countPoll).responses = s.responses := rfl
@[simp] theorem countPoll_inputs : (s.countPoll).inputs = s.inputs := rfl
@[simp] theorem countPoll_rawIn : (s.countPoll).rawIn = s.rawIn := rfl
@[simp] theorem countPoll_pinIn : (s.countPoll).pinIn = s.pinIn := rfl
@[simp] theorem countPoll_rawDraws : (s.countPoll).rawDraws = s.rawDraws := rfl
@[simp] theorem countPoll_pollCount : (s.countPoll).pollCount = s.pollCount + 1 := rfl

end countPoll

section setEnv
variable (s : State) (raws : List Word) (pins : List (List Bool))

@[simp] theorem setEnv_cfg : (s.setEnv raws pins).cfg = s.cfg := rfl
@[simp] theorem setEnv_ovf : (s.setEnv raws pins).ovf = s.ovf := rfl
@[simp] theorem setEnv_nest : (s.setEnv raws pins).nest = s.nest := rfl
@[simp] theorem setEnv_ien : (s.setEnv raws pins).ien = s.ien := rfl
@[simp] theorem setEnv_dio : (s.setEnv raws pins).dio = s.dio := rfl
@[simp] theorem setEnv_failed : (s.setEnv raws pins).failed = s.failed := rfl
@[simp] theorem setEnv_trace : (s.setEnv raws pins).trace = s.trace := rfl
@[simp] theorem setEnv_responses : (s.setEnv raws pins).responses = s.responses := rfl
@[simp] theorem setEnv_inputs : (s.setEnv raws pins).inputs = s.inputs := rfl
@[simp] theorem setEnv_rawIn : (s.setEnv raws pins).rawIn = raws := rfl
@[simp] theorem setEnv_pinIn : (s.setEnv raws pins).pinIn = pins := rfl
@[simp] theorem setEnv_rawDraws : (s.setEnv raws pins).rawDraws = s.rawDraws := rfl
@[simp] theorem setEnv_pollCount : (s.setEnv raws pins).pollCount = s.pollCount := rfl

end setEnv

section restart
variable (s : State)

@[simp] theorem restart_cfg : (restart s).cfg = s.cfg := rfl
@[simp] theorem restart_ovf : (restart s).ovf = 0 := rfl
@[simp] theorem restart_nest : (restart s).nest = 0 := rfl
@[simp] theorem restart_ien : (restart s).ien = true := rfl
@[simp] theorem restart_dio : (restart s).dio = List.replicate s.cfg.numDio false := rfl
@[simp] theorem restart_failed : (restart s).failed = (!s.cfg.cfgOk) := rfl
@[simp] theorem restart_trace : (restart s).trace = (if s.cfg.cfgOk then [] else [.fatal]) := rfl
@[simp] theorem restart_responses : (restart s).responses = [] := rfl
@[simp] theorem restart_inputs : (restart s).inputs = s.inputs := rfl
@[simp] theorem restart_rawIn : (restart s).rawIn = s.rawIn := rfl
@[simp] theorem restart_pinIn : (restart s).pinIn = s.pinIn := rfl
@[simp] theorem restart_rawDraws : (restart s).rawDraws = s.rawDraws := rfl
@[simp] theorem restart_pollCount : (restart s).pollCount = s.pollCount := rfl

end restart

section resetOf
variable (c : Config)

@[simp] theorem resetOf_cfg : (resetOf c).cfg = c := rfl
@[simp] theorem resetOf_ovf : (resetOf c).ovf = 0 := rfl
@[simp] theorem resetOf_nest : (resetOf c).nest = 0 := rfl
@[simp] theorem resetOf_ien : (resetOf c).ien = true := rfl
@[simp] theorem resetOf_dio : (resetOf c).dio = List.replicate c.numDio false := rfl
@[simp] theorem resetOf_failed : (resetOf c).failed = (!c.cfgOk) := rfl
@[simp] theorem resetOf_trace : (resetOf c).trace = (if c.cfgOk then [] else [.fatal]) := rfl
@[simp] theorem resetOf_responses : (resetOf c).responses = [] := rfl
@[simp] theorem resetOf_inputs : (resetOf c).inputs = [] := rfl
@[simp] theorem resetOf_rawIn : (resetOf c).rawIn = [] := rfl
@[simp] theorem resetOf_pinIn : (resetOf c).pinIn = [] := rfl
@[simp] theorem resetOf_rawDraws : (resetOf c).rawDraws = 0 := rfl
@[simp] theorem resetOf_pollCount : (resetOf c).pollCount = 0 := rfl

end resetOf

end Sys2Proof.Machine.State
end

