-- ==== Sys2Proof/Laws/PinPoll.lean ====
section
/-! SUPPORT. What a POLL pass does, said once in closed form (spec/43_pinpoll.md R150, R153, R154). -/

namespace Sys2Proof.Machine

/-- One slot's visit: an unused slot changes nothing; a used one takes its level, stores it, and emits
`RadioIrq` on a rising edge. -/
theorem pollSlot_eq (s : State) (i : Nat) (h : i < s.dio.length) :
    pollSlot s i =
      if s.cfg.isUsed i then
        { s with dio := s.dio.set i (pinSample s i)
                 pinIn := s.pinIn.modify i List.tail
                 trace := s.trace ++ if risingPending s i then [.radioIrq i] else [] }
      else s := by
  unfold pollSlot
  by_cases hu : s.cfg.isUsed i
  · have hget : s.dio[i]?.getD false = s.dio[i] := by simp [h]
    have hself : s.dio.set i s.dio[i] = s.dio := List.set_getElem_self h
    cases hp : pinSample s i <;> cases hd : s.dio[i] <;> rw [hd] at hself <;>
      simp [hu, hp, hd, dioAt, deliverPinEvent, risingPending, State.takePin, State.setDio, State.emit, h, hself]
  · simp [hu]

/-- The pass over the slots below `n`, in closed form. -/
theorem pollSlots_eq (s : State) (hs : DioSized s) (n : Nat) (hn : n ≤ s.cfg.numDio) :
    (List.range n).foldl pollSlot s =
      { s with dio := s.dio.mapIdx fun i b => if i < n then polledLevel s i else b
               pinIn := s.pinIn.mapIdx fun i l => if i < n ∧ s.cfg.isUsed i then l.tail else l
               trace := s.trace ++ ((List.range n).filter (risingPending s)).map .radioIrq } := by
  induction n with
  | zero =>
    have hid : ∀ {α : Type} (l : List α), l.mapIdx (fun _ x => x) = l := fun l => by
      apply List.ext_getElem <;> simp
    simp [hid]
  | succ n ih =>
    rw [List.range_succ, List.foldl_append, ih (by omega)]
    have hlen : n < s.dio.length := by rw [hs]; omega
    simp only [List.foldl_cons, List.foldl_nil]
    rw [pollSlot_eq _ _ (by simpa using hlen)]
    have hsample : ∀ (d : List Bool) (tr : List Event),
        pinSample { s with dio := d, trace := tr, pinIn := s.pinIn.mapIdx fun i l => if i < n ∧ s.cfg.isUsed i then l.tail else l } n
          = pinSample s n := by
      intro d tr
      simp [pinSample, List.getElem?_mapIdx]
    have hdio : ∀ (p : List (List Bool)) (tr : List Event),
        dioAt { s with dio := s.dio.mapIdx fun i b => if i < n then polledLevel s i else b, trace := tr, pinIn := p } n
          = dioAt s n := by
      intro p tr
      simp [dioAt, List.getElem?_mapIdx]
    by_cases hu : s.cfg.isUsed n
    · simp only [hu, if_true, State.mk.injEq, true_and, and_true, hsample, risingPending, hdio]
      refine ⟨?_, ?_, ?_⟩
      · apply List.ext_getElem (by simp)
        intro j h1 h2
        simp only [List.getElem_set, List.getElem_mapIdx]
        by_cases hj : n = j
        · subst hj
          simp [polledLevel, hu]
        · have : j < n ↔ j < n + 1 := by omega
          simp [hj, this]
      · have hr : risingPending s n = (pinSample s n && !dioAt s n) := by simp [risingPending, hu]
        cases hb : (pinSample s n && !dioAt s n) <;> rw [hb] at hr <;> simp [hr]
      · apply List.ext_getElem (by simp)
        intro j h1 h2
        simp only [List.getElem_modify, List.getElem_mapIdx]
        by_cases hj : n = j
        · subst hj
          simp [hu]
        · have : j < n ↔ j < n + 1 := by omega
          simp [hj, this]
    · simp only [hu, if_false, State.mk.injEq, true_and, and_true, Bool.false_eq_true]
      refine ⟨?_, ?_, ?_⟩
      · apply List.ext_getElem (by simp)
        intro j h1 h2
        simp only [List.getElem_mapIdx]
        by_cases hj : n = j
        · subst hj
          simp [polledLevel, hu, dioAt, hlen]
        · have : j < n ↔ j < n + 1 := by omega
          simp [this]
      · simp [List.filter_append, risingPending, hu]
      · apply List.ext_getElem (by simp)
        intro j h1 h2
        simp only [List.getElem_mapIdx]
        by_cases hj : n = j
        · subst hj
          simp [hu]
        · have : j < n ↔ j < n + 1 := by omega
          simp [this]

/-- A used slot exists. -/
theorem isUsed_lt {c : Config} {i : Nat} (h : c.isUsed i = true) : i < c.numDio := by
  by_contra hge
  have : c.used.length ≤ i := by simpa [Config.numDio] using hge
  simp [Config.isUsed, List.getElem?_eq_none this] at h

/-- POLL in closed form: the sampled levels are stored, one level of each used slot is taken, and the
rising edges are emitted in ascending order (R150, R153, R154). -/
theorem poll_eq (s : State) (hs : DioSized s) :
    poll s =
      { s with dio := polledDio s, pinIn := polledPins s, trace := s.trace ++ risingEvents s,
               pollCount := s.pollCount + 1 } := by
  rw [poll, pollSlots_eq s hs s.cfg.numDio le_rfl]
  simp only [State.countPoll, State.mk.injEq, true_and, and_true, risingEvents]
  refine ⟨?_, ?_⟩
  · apply List.ext_getElem (by simp [polledDio, hs])
    intro j h1 h2
    have : j < s.cfg.numDio := by simpa [hs] using h1
    simp [polledDio, this]
  · unfold polledPins
    congr 1
    funext i l
    by_cases hu : s.cfg.isUsed i
    · simp [hu, isUsed_lt hu]
    · simp [hu]

end Sys2Proof.Machine
end

