-- ==== Sys2Proof/Laws/Exec.lean ====
section
/-! SUPPORT. What each command's step can do, said once: its next state or its fault, and what every command leaves alone. -/

namespace Sys2Proof.Machine

/-- The bool CHKDL answers, as a word (R6, R111). -/
theorem boolWord_deadlineReached (d : Word) :
    boolWord (deadlineReached d) = if d.toInt ≤ 0 then 1 else 0 := by
  unfold deadlineReached asI32
  by_cases h : d.toInt ≤ 0 <;> simp only [h, decide_true, decide_false, if_true, if_false] <;> rfl

/-- A time command never fails: one tick_step, then the answer (R91, R110, R111). -/
theorem exec_time_eq {i : Instr} (hi : i.isTime = true) (s : State) :
    exec i s = .next ((tickStep s).2.respond false (answerData i (tickStep s).1)) := by
  cases i with
  | ticks => rfl
  | delta target => rfl
  | chkdl target =>
    rw [answerData, ← boolWord_deadlineReached]
    rfl
  | irqdis => exact absurd hi (by decide)
  | irqen => exact absurd hi (by decide)

/-- IRQDIS with room in the counter (R130). -/
theorem exec_irqdis_eq (s : State) (h : s.nest + 1 < 2 ^ s.cfg.nestW) :
    exec .irqdis s =
      .next { s with ien := false, nest := s.nest + 1, trace := s.trace ++ [.hwIrqDisable],
                     responses := s.responses ++ [⟨false, 0⟩] } := by
  simp only [exec, execIrqdis, nestHasRoom, h, decide_true, if_true]
  rfl

/-- IRQDIS without room is `NestOverflow` (R134). -/
theorem exec_irqdis_overflow (s : State) (h : 2 ^ s.cfg.nestW ≤ s.nest + 1) :
    exec .irqdis s = .fault .nestOverflow := by
  simp [exec, execIrqdis, nestHasRoom, Nat.not_lt.mpr h]

/-- IRQEN at `NEST = 0` is `NestUnderflow` (R133). -/
theorem exec_irqen_underflow (s : State) (h : s.nest = 0) : exec .irqen s = .fault .nestUnderflow := by
  simp [exec, execIrqen, h]

/-- A nested IRQEN only decrements (R131). -/
theorem exec_irqen_nested (s : State) (h : 2 ≤ s.nest) :
    exec .irqen s = .next { s with nest := s.nest - 1, responses := s.responses ++ [⟨false, 0⟩] } := by
  have h0 : s.nest ≠ 0 := by omega
  have h1 : s.nest - 1 ≠ 0 := by omega
  simp only [exec, execIrqen, h0, h1, if_false, State.setNest_nest]
  rfl

/-- A top-level IRQEN enables, then polls (R131, R150). -/
theorem exec_irqen_top (s : State) (h : s.nest = 1) (hs : DioSized s) :
    exec .irqen s =
      .next { s with nest := 0, ien := true, dio := polledDio s, pinIn := polledPins s,
                     trace := s.trace ++ .hwIrqEnable :: risingEvents s, pollCount := s.pollCount + 1,
                     responses := s.responses ++ [⟨false, 0⟩] } := by
  have hrun : exec .irqen s =
      .next ((poll (((s.setNest 0).emit .hwIrqEnable).setIen true)).respond false 0) := by
    simp [exec, execIrqen, h, enableAndPoll]
  have hcons : s.trace ++ .hwIrqEnable :: risingEvents s = (s.trace ++ [.hwIrqEnable]) ++ risingEvents s := by
    simp
  rw [hrun, poll_eq (((s.setNest 0).emit .hwIrqEnable).setIen true) hs, hcons]
  rfl

/-- No command is refused: every one has its meaning. -/
theorem exec_ne_refused (i : Instr) (s : State) (r : Refusal) : exec i s ≠ .refused r := by
  cases i <;> simp only [exec, execTicks, execDelta, execChkdl, execIrqdis, execIrqen] <;> try split
  all_goals simp

/-- What a POLL pass leaves alone, in every state: all but the pin file, the levels to come and the trace, which gains
`RadioIrq` events of used slots only. -/
theorem poll_frame (s : State) :
    ∃ (dio : List Bool) (pins : List (List Bool)) (slots : List Nat),
      dio.length = s.dio.length ∧ (∀ i ∈ slots, s.cfg.isUsed i = true) ∧
        poll s = { s with dio := dio, pinIn := pins, trace := s.trace ++ slots.map .radioIrq,
                          pollCount := s.pollCount + 1 } := by
  have hslot : ∀ (u : State) (i : Nat), ∃ (dio : List Bool) (pins : List (List Bool)) (slots : List Nat),
      dio.length = u.dio.length ∧ (∀ j ∈ slots, u.cfg.isUsed j = true) ∧
        pollSlot u i = { u with dio := dio, pinIn := pins, trace := u.trace ++ slots.map .radioIrq } := by
    intro u i
    unfold pollSlot deliverPinEvent
    by_cases hu : u.cfg.isUsed i
    · simp only [hu, if_true]
      split
      · refine ⟨u.dio.set i (!dioAt (u.takePin i) i), u.pinIn.modify i List.tail, ?_⟩
        split
        · exact ⟨[i], by simp, by simpa using hu, rfl⟩
        · refine ⟨[], by simp, by simp, ?_⟩
          rw [List.map_nil, List.append_nil]
          rfl
      · refine ⟨u.dio, u.pinIn.modify i List.tail, [], rfl, by simp, ?_⟩
        rw [List.map_nil, List.append_nil]
        rfl
    · exact ⟨u.dio, u.pinIn, [], rfl, by simp, by simp [hu]⟩
  have hfold : ∀ (l : List Nat) (u : State), ∃ (dio : List Bool) (pins : List (List Bool)) (slots : List Nat),
      dio.length = u.dio.length ∧ (∀ j ∈ slots, u.cfg.isUsed j = true) ∧
        l.foldl pollSlot u = { u with dio := dio, pinIn := pins, trace := u.trace ++ slots.map .radioIrq } := by
    intro l
    induction l with
    | nil => exact fun u => ⟨u.dio, u.pinIn, [], rfl, by simp, by simp⟩
    | cons i l ih =>
      intro u
      obtain ⟨d1, p1, e1, hl1, hu1, h1⟩ := hslot u i
      obtain ⟨d2, p2, e2, hl2, hu2, h2⟩ := ih (pollSlot u i)
      rw [h1] at h2 hl2 hu2
      refine ⟨d2, p2, e1 ++ e2, hl2.trans hl1, ?_, ?_⟩
      · simp only [List.mem_append]
        rintro j (hj | hj)
        · exact hu1 j hj
        · exact hu2 j hj
      · rw [List.foldl_cons, h1, h2]
        simp
  obtain ⟨dio, pins, slots, hl, hu, h⟩ := hfold (List.range s.cfg.numDio) s
  exact ⟨dio, pins, slots, hl, hu, by rw [poll, h]; rfl⟩

/-- A top-level IRQEN in every state, whatever its pin file: it completes, and what it leaves alone. -/
theorem exec_irqen_top_frame (s : State) (h : s.nest = 1) :
    ∃ (dio : List Bool) (pins : List (List Bool)) (slots : List Nat),
      dio.length = s.dio.length ∧ (∀ i ∈ slots, s.cfg.isUsed i = true) ∧
        exec .irqen s =
          .next { s with nest := 0, ien := true, dio := dio, pinIn := pins,
                         trace := s.trace ++ .hwIrqEnable :: slots.map .radioIrq,
                         pollCount := s.pollCount + 1, responses := s.responses ++ [⟨false, 0⟩] } := by
  obtain ⟨dio, pins, slots, hl, hu, hp⟩ := poll_frame (((s.setNest 0).emit .hwIrqEnable).setIen true)
  refine ⟨dio, pins, slots, hl, hu, ?_⟩
  have hrun : exec .irqen s =
      .next ((poll (((s.setNest 0).emit .hwIrqEnable).setIen true)).respond false 0) := by
    simp [exec, execIrqen, h, enableAndPoll]
  have hcons : s.trace ++ .hwIrqEnable :: slots.map .radioIrq =
      (s.trace ++ [.hwIrqEnable]) ++ slots.map Event.radioIrq := by simp
  rw [hrun, hp, hcons]
  rfl

/-- Everything a command can do: the four ways its step has a next state. -/
theorem exec_cases {i : Instr} {s t : State} (h : exec i s = .next t) :
    (i.isTime = true ∧ t = (tickStep s).2.respond false (answerData i (tickStep s).1)) ∨
    (i = .irqdis ∧ s.nest + 1 < 2 ^ s.cfg.nestW ∧
      t = { s with ien := false, nest := s.nest + 1, trace := s.trace ++ [.hwIrqDisable],
                   responses := s.responses ++ [⟨false, 0⟩] }) ∨
    (i = .irqen ∧ 2 ≤ s.nest ∧ t = { s with nest := s.nest - 1, responses := s.responses ++ [⟨false, 0⟩] }) ∨
    (i = .irqen ∧ s.nest = 1 ∧ ∃ (dio : List Bool) (pins : List (List Bool)) (slots : List Nat),
      dio.length = s.dio.length ∧ (∀ j ∈ slots, s.cfg.isUsed j = true) ∧
        t = { s with nest := 0, ien := true, dio := dio, pinIn := pins,
                     trace := s.trace ++ .hwIrqEnable :: slots.map .radioIrq,
                     pollCount := s.pollCount + 1, responses := s.responses ++ [⟨false, 0⟩] }) := by
  by_cases ht : i.isTime = true
  · rw [exec_time_eq ht, Host.Outcome.next.injEq] at h
    exact .inl ⟨ht, h.symm⟩
  · cases i with
    | ticks => exact absurd rfl ht
    | delta target => exact absurd rfl ht
    | chkdl target => exact absurd rfl ht
    | irqdis =>
      by_cases hr : s.nest + 1 < 2 ^ s.cfg.nestW
      · rw [exec_irqdis_eq s hr, Host.Outcome.next.injEq] at h
        exact .inr (.inl ⟨rfl, hr, h.symm⟩)
      · rw [exec_irqdis_overflow s (Nat.not_lt.mp hr)] at h
        cases h
    | irqen =>
      obtain h0 | h1 | h2 : s.nest = 0 ∨ s.nest = 1 ∨ 2 ≤ s.nest := by omega
      · rw [exec_irqen_underflow s h0] at h
        cases h
      · obtain ⟨dio, pins, slots, hl, hu, he⟩ := exec_irqen_top_frame s h1
        rw [he, Host.Outcome.next.injEq] at h
        exact .inr (.inr (.inr ⟨rfl, h1, dio, pins, slots, hl, hu, h.symm⟩))
      · rw [exec_irqen_nested s h2, Host.Outcome.next.injEq] at h
        exact .inr (.inr (.inl ⟨rfl, h2, h.symm⟩))

/-- A sequence of commands is its two parts, one after the other. -/
theorem runAll_append (l₁ l₂ : List Instr) (s : State) :
    runAll (l₁ ++ l₂) s =
      match runAll l₁ s with
      | .next t => runAll l₂ t
      | .fault r => .fault r
      | .refused r => .refused r := by
  induction l₁ generalizing s with
  | nil => rfl
  | cons i l ih =>
    simp only [List.cons_append, runAll]
    cases exec i s <;> simp [ih]

end Sys2Proof.Machine
end

