-- ==== Sys2Proof/Laws/PerInstr.lean ====
section
/-! SUPPORT. Facts proved once per constructor of Instr. -/

namespace Sys2Proof.Laws.OpcodeRowFits

/-- A command is well formed, its encoding holds its opcode and its operand, and exactly its own row of the opcode map
names it (R72, R73). -/
def Statement (i : Instr) : Prop :=
  i.wf = true ∧ opField (encode i) = i.opcode ∧ argField (encode i) = i.arg ∧
    (opcodeMap[i.opcode.toNat]?).map OpcodeRow.mnemonic = some i.mnemonic

theorem ticks : Statement .ticks := ⟨rfl, opField_cmdWord _ _, argField_cmdWord _ _, rfl⟩

theorem delta (target : Word) : Statement (.delta target) := ⟨rfl, opField_cmdWord _ _, argField_cmdWord _ _, rfl⟩

theorem chkdl (target : Word) : Statement (.chkdl target) := ⟨rfl, opField_cmdWord _ _, argField_cmdWord _ _, rfl⟩

theorem irqdis : Statement .irqdis := ⟨rfl, opField_cmdWord _ _, argField_cmdWord _ _, rfl⟩

theorem irqen : Statement .irqen := ⟨rfl, opField_cmdWord _ _, argField_cmdWord _ _, rfl⟩

end Sys2Proof.Laws.OpcodeRowFits
end

