-- ==== Sys2Proof/Laws/Step.lean ====
section
/-! SUPPORT. What a step can do, said once (spec/00_scope.md R8, spec/10_state.md R28, spec/60_exceptions.md R173, spec/70_reset_and_hazards.md R200). -/

namespace Sys2Proof.Machine

/-- No command writes the configuration, `FAILED` or the host's actions. -/
theorem exec_frame {i : Instr} {s t : State} (h : exec i s = .next t) :
    t.cfg = s.cfg ∧ t.failed = s.failed ∧ t.inputs = s.inputs := by
  rcases exec_cases h with ⟨_, rfl⟩ | ⟨_, _, rfl⟩ | ⟨_, _, rfl⟩ | ⟨_, _, _, _, _, _, _, rfl⟩ <;>
    simp [tickStep]

/-- A reset is found exactly if one is to come. -/
theorem reset_mem_of_afterReset {l rest : List HostAction} (h : afterReset l = some rest) : HostAction.reset ∈ l := by
  induction l with
  | nil => cases h
  | cons a l ih =>
    cases a with
    | command w => exact List.mem_cons_of_mem _ (ih h)
    | line w d => exact List.mem_cons_of_mem _ (ih h)
    | reset => exact List.mem_cons_self

/-- An accepted word that has a next state is an illegal one, refused, or a command, executed (R8, R173). -/
theorem accept_cases {w : CmdWord} {s t : State} (h : accept w s = .next t) :
    ((∃ op, decode w = .illegal op) ∧ t = s.respond true 0) ∨ ∃ i, decode w = .command i ∧ exec i s = .next t := by
  unfold accept at h
  split at h
  · rename_i i hd
    exact .inr ⟨i, hd, h⟩
  · rename_i op hd
    exact .inl ⟨⟨op, hd⟩, by cases h; rfl⟩

/-- A line with a next state: the word is accepted under the line's draws, and the environment is given back. -/
theorem acceptLine_cases {w : CmdWord} {d : Draws} {s t : State} (h : acceptLine w d s = .next t) :
    ∃ u, accept w (s.setEnv d.raws (d.levels s.cfg.numDio)) = .next u ∧ t = u.setEnv s.rawIn s.pinIn := by
  unfold acceptLine at h
  split at h
  · rename_i u hu
    exact ⟨u, hu, by cases h; rfl⟩
  · cases h
  · cases h

/-- A step with a next state waits, resets, or accepts the next word: in the state without it, or, for a line,
under that line's draws. -/
theorem step_cases {s t : State} (h : step s = .next t) :
    t = s ∨
    (∃ rest, HostAction.reset ∈ s.inputs ∧ t = restart (s.setInputs rest)) ∨
    (s.failed = false ∧ ∃ w rest, s.inputs = .command w :: rest ∧ accept w (s.setInputs rest) = .next t) ∨
    (s.failed = false ∧ ∃ w d rest u, s.inputs = .line w d :: rest ∧
      accept w ((s.setInputs rest).setEnv d.raws (d.levels s.cfg.numDio)) = .next u ∧ t = u.setEnv s.rawIn s.pinIn) := by
  unfold step servePort at h
  split at h
  · unfold servePortFailed at h
    split at h
    · exact .inl (by cases h; rfl)
    · rename_i rest hr
      exact .inr (.inl ⟨rest, reset_mem_of_afterReset hr, by cases h; rfl⟩)
  · rename_i hf
    have hf : s.failed = false := by simpa using hf
    unfold servePortReady at h
    split at h
    · exact .inl (by cases h; rfl)
    · rename_i rest hi
      exact .inr (.inl ⟨rest, by simp [hi], by cases h; rfl⟩)
    · rename_i w rest hi
      exact .inr (.inr (.inl ⟨hf, w, rest, hi, h⟩))
    · rename_i w d rest hi
      obtain ⟨u, hu, ht⟩ := acceptLine_cases h
      exact .inr (.inr (.inr ⟨hf, w, d, rest, u, hi, hu, ht⟩))

/-- An invariant, packaged once: what a reset establishes, what commands and refusals keep in a block that has not
failed, and what does not depend on the host's actions or the environment, every step keeps. -/
theorem step_keeps {P : State → Prop} (inputs : ∀ s l, P s → P (s.setInputs l))
    (env : ∀ s raws pins, P s → P (s.setEnv raws pins)) (reset : ∀ s, P s → P (restart s))
    (refusal : ∀ s, s.failed = false → P s → P (s.respond true 0))
    (command : ∀ i s t, s.failed = false → P s → exec i s = .next t → P t) {s t : State} (hs : P s)
    (h : step s = .next t) : P t := by
  have word : ∀ {w : CmdWord} {u v : State}, u.failed = false → P u → accept w u = .next v → P v := by
    intro w u v hf hu hv
    rcases accept_cases hv with ⟨_, rfl⟩ | ⟨i, _, hi⟩
    · exact refusal u hf hu
    · exact command i u v hf hu hi
  rcases step_cases h with rfl | ⟨rest, _, rfl⟩ | ⟨hf, w, rest, _, ha⟩ | ⟨hf, w, d, rest, u, _, ha, rfl⟩
  · exact hs
  · exact reset _ (inputs _ _ hs)
  · exact word (u := s.setInputs rest) hf (inputs _ _ hs) ha
  · exact env _ _ _ (word (u := (s.setInputs rest).setEnv d.raws (d.levels s.cfg.numDio)) hf (env _ _ _ (inputs _ _ hs)) ha)

end Sys2Proof.Machine
end

