-- ==== Sys2Proof/Laws/TickClock.lean ====
section
/-! SUPPORT. What tick_step does, said once: the addend is MASK or 0 by the seam bits (spec/40_tickclock.md R92), and OVF as a number. -/

namespace Sys2Proof.Machine

/-- The addend of tick_step: `MASK` if the stored and the sampled seam bit differ, else 0. -/
theorem seamAddend_eq (e : Nat) (he : 0 < e ∧ e < 8) (raw : Word) (ovf : Byte) :
    (msbOf (scaled e raw) ^^^ ovf) &&& seamMask e =
      if raw.getLsbD 31 != seamField e ovf then seamMask e else 0 := by
  obtain ⟨h0, h8⟩ := he
  have hbit : ∀ i < 8, ((msbOf (scaled e raw) ^^^ ovf) &&& seamMask e).getLsbD i =
      ((raw.getLsbD 31 != seamField e ovf) && decide (i = 7 - e)) := by
    intro i hi
    have hm : (seamMask e).getLsbD i = decide (i = 7 - e) := by
      simp only [seamMask, BitVec.getLsbD_shiftLeft, BitVec.getLsbD_one]
      by_cases h : i = 7 - e
      · simp [h]; omega
      · simp [h]; omega
    rw [BitVec.getLsbD_and, hm]
    by_cases h : i = 7 - e
    · subst h
      have hr : e + (24 + (7 - e)) = 31 := by omega
      simp [msbOf, scaled, seamField, BitVec.getLsbD_extractLsb', BitVec.getLsbD_ushiftRight, hr]
      exact fun _ => by omega
    · simp [h]
  apply BitVec.eq_of_getLsbD_eq
  intro i hi
  rw [hbit i hi]
  cases hs : (raw.getLsbD 31 != seamField e ovf)
  · simp
  · simp only [if_true, Bool.true_and]
    simp only [seamMask, BitVec.getLsbD_shiftLeft, BitVec.getLsbD_one]
    by_cases h : i = 7 - e
    · simp [h]; omega
    · simp [h]; omega

/-- `SEAM` as a number's digit. -/
theorem seamField_eq (e : Nat) (ovf : Byte) : seamField e ovf = decide (ovf.toNat / 2 ^ (7 - e) % 2 = 1) := by
  simp [seamField, BitVec.getLsbD, Nat.testBit_eq_decide_div_mod_eq]

/-- `OVF` after tick_step, as a number (R90, R92). -/
theorem ovfUpdate_toNat (e : Nat) (he : 0 < e ∧ e < 8) (raw : Word) (ovf : Byte) :
    (ovfUpdate e raw ovf).toNat =
      if raw.getLsbD 31 = seamField e ovf then ovf.toNat else (ovf.toNat + 2 ^ (7 - e)) % 256 := by
  have hmask : (seamMask e).toNat = 2 ^ (7 - e) := by
    obtain ⟨h0, h8⟩ := he
    interval_cases e <;> rfl
  rw [ovfUpdate, seamAddend_eq e he, BitVec.toNat_add]
  by_cases h : raw.getLsbD 31 = seamField e ovf
  · have hb : (raw.getLsbD 31 != seamField e ovf) = false := by rw [h]; exact bne_self_eq_false _
    rw [hb, if_pos h]
    simpa using ovf.isLt
  · have hb : (raw.getLsbD 31 != seamField e ovf) = true := by simpa using h
    simp only [h, hb, if_true, if_false, hmask]

/-- After tick_step the seam bit is the sampled one (R92). -/
theorem ovfUpdate_seam (e : Nat) (he : 0 < e ∧ e < 8) (raw : Word) (ovf : Byte) :
    seamField e (ovfUpdate e raw ovf) = raw.getLsbD 31 := by
  have hv := ovf.isLt
  rw [seamField_eq, ovfUpdate_toNat e he]
  by_cases h : raw.getLsbD 31 = seamField e ovf
  · simp only [h, if_true, seamField_eq]
  · rw [if_neg h]
    obtain ⟨h0, h8⟩ := he
    rw [seamField_eq] at h
    cases hr : raw.getLsbD 31 <;> rw [hr] at h <;> interval_cases e <;> simp at h ⊢ <;> omega

/-- tick_step leaves the field `ZERO` as it is (R23). -/
theorem ovfUpdate_zero (e : Nat) (he : 0 < e ∧ e < 8) (raw : Word) (ovf : Byte) :
    zeroField e (ovfUpdate e raw ovf) = zeroField e ovf := by
  have hv := ovf.isLt
  rw [zeroField, zeroField, ovfUpdate_toNat e he]
  split
  · rfl
  · obtain ⟨h0, h8⟩ := he
    interval_cases e <;> omega

/-- `EXT` counts one wrap, modulo `2^E`, exactly when the seam bit falls (R92). -/
theorem ovfUpdate_ext (e : Nat) (he : 0 < e ∧ e < 8) (raw : Word) (ovf : Byte) :
    extField e (ovfUpdate e raw ovf) =
      (extField e ovf + if seamField e ovf && !raw.getLsbD 31 then 1 else 0) % 2 ^ e := by
  have hv := ovf.isLt
  rw [extField, extField, ovfUpdate_toNat e he]
  obtain ⟨h0, h8⟩ := he
  have hs := seamField_eq e ovf
  cases hr : raw.getLsbD 31 <;> cases hs' : seamField e ovf <;> rw [hs'] at hs <;>
    simp only [eq_comm (a := false), eq_comm (a := true), decide_eq_true_eq, decide_eq_false_iff_not] at hs <;>
    simp <;> interval_cases e <;> norm_num at hs ⊢ <;> omega

/-- The tick value is `scaled + EXT * 2^(32-E)`: the `or` never merges two different bits (R93). -/
theorem tickValue_toNat (e : Nat) (he : 0 < e ∧ e < 8) (raw : Word) (ovf : Byte)
    (hseam : seamField e ovf = raw.getLsbD 31) (hzero : zeroField e ovf = 0) :
    (tickValue e raw ovf).toNat = raw.toNat / 2 ^ e + extField e ovf * 2 ^ (32 - e) := by
  have hr := raw.isLt
  have hv := ovf.isLt
  rw [seamField_eq] at hseam
  have hraw : raw.getLsbD 31 = decide (raw.toNat / 2 ^ 31 % 2 = 1) := by
    simp [BitVec.getLsbD, Nat.testBit_eq_decide_div_mod_eq]
  rw [hraw] at hseam
  have hmod : ovf.toNat / 2 ^ (7 - e) % 2 = raw.toNat / 2 ^ 31 % 2 := by
    rw [decide_eq_decide] at hseam
    omega
  have hlt : raw.toNat / 2 ^ e < 2 ^ (32 - e) := by
    obtain ⟨h0, h8⟩ := he
    interval_cases e <;> norm_num <;> omega
  have hsplit : ovf.toNat * 2 ^ 24 =
      extField e ovf * 2 ^ (32 - e) + (raw.toNat / 2 ^ 31 % 2) * 2 ^ (31 - e) := by
    rw [← hmod]
    simp only [extField, zeroField] at hzero ⊢
    obtain ⟨h0, h8⟩ := he
    interval_cases e <;> norm_num at hzero ⊢ <;> omega
  have hsum : ovf.toNat * 2 ^ 24 < 2 ^ 32 := by omega
  have hval : (tickValue e raw ovf).toNat = raw.toNat / 2 ^ e ||| ovf.toNat * 2 ^ 24 := by
    simp only [tickValue, scaled, BitVec.toNat_or, BitVec.toNat_ushiftRight, BitVec.toNat_shiftLeft,
      BitVec.toNat_setWidth, Nat.shiftRight_eq_div_pow, Nat.shiftLeft_eq]
    rw [Nat.mod_eq_of_lt (by omega : ovf.toNat < 2 ^ 32), Nat.mod_eq_of_lt hsum]
  have hbit : (raw.toNat / 2 ^ e) / 2 ^ (31 - e) = raw.toNat / 2 ^ 31 := by
    rw [Nat.div_div_eq_div_mul, ← pow_add]
    congr 2
    omega
  have hlow : (raw.toNat / 2 ^ 31 % 2) * 2 ^ (31 - e) < 2 ^ (32 - e) := by
    have : 2 ^ (32 - e) = 2 * 2 ^ (31 - e) := by rw [← pow_succ']; congr 1; omega
    rw [this]
    exact Nat.mul_lt_mul_of_pos_right (by omega) (by positivity)
  have habsorb : raw.toNat / 2 ^ e ||| (raw.toNat / 2 ^ 31 % 2) * 2 ^ (31 - e) = raw.toNat / 2 ^ e := by
    rcases Nat.mod_two_eq_zero_or_one (raw.toNat / 2 ^ 31) with h | h
    · rw [h]
      simp
    · apply Nat.eq_of_testBit_eq
      intro i
      rw [h, one_mul, Nat.testBit_or, Nat.testBit_two_pow]
      by_cases hi : 31 - e = i
      · subst hi
        rw [Nat.testBit_eq_decide_div_mod_eq (x := raw.toNat / 2 ^ e), hbit, h]
        simp
      · simp [hi]
  rw [hval, hsplit, mul_comm (extField e ovf), Nat.two_pow_add_eq_or_of_lt hlow, ← Nat.or_assoc,
    Nat.or_comm (raw.toNat / 2 ^ e), Nat.or_assoc, habsorb, ← Nat.two_pow_add_eq_or_of_lt hlt]
  omega

end Sys2Proof.Machine
end

