-- ==== Sys2Proof/Tests/Slice0.lean ====
section
/-! SUPPORT. The model's own tests: ill-formed terms refused, words written out from spec/30_encoding.md decoded, one step each from the vectors of spec/95_test_vectors.md, and a witness for the hypotheses of each statement. Expected values are the spec's; a witness states only that hypotheses can be met. -/

namespace Sys2Proof.Tests

open Sys2Proof.Machine

/-- The parameters of the spec's program P3. -/
def params : Params := ⟨6, [true, true, false], true, 8, 250, 16, 250⟩

/-- A configuration for a test: the standard one with another `E`, `USED` and `NEST_W`. -/
def cfg (e : Nat) (used : List Bool) (nestW : Nat := 8) (cfgOk : Bool := true) (h : 0 < e ∧ e < 8 := by decide)
    (hw : 1 ≤ nestW := by decide) : Config :=
  { Config.standard with e := e, used := used, nestW := nestW, cfgOk := cfgOk, e_range := h, nestW_pos := hw }

/-- A state for a clock test: `E`, `OVF` and the raw samples to come. -/
def clock (e : Nat) (ovf : Byte) (raws : List Word) (h : 0 < e ∧ e < 8 := by decide) : State :=
  { State.resetOf (cfg e [] 8 true h) with ovf := ovf, rawIn := raws }

/-- A state for a guard test: `E = 6`, `NEST`, `IEN` to match, and the pins. -/
def guard (nest : Nat) (used dio : List Bool) (pins : List (List Bool)) : State :=
  { State.resetOf (cfg 6 used) with nest := nest, ien := nest == 0, dio := dio, pinIn := pins }

/-- The outcome is a next state of which `p` holds. -/
def goesTo (o : Host.Outcome State Fault Refusal) (p : State → Bool) : Bool :=
  match o with
  | .next t => p t
  | .fault _ => false
  | .refused _ => false

/-! ### WellFormed: the checks refuse what is ill formed -/

theorem test_params_built : (params.build).isSome = true := by decide
theorem test_scale_zero_refused : Params.build { params with e := 0 } = none := by decide
theorem test_scale_eight_refused : Params.build { params with e := 8 } = none := by decide
theorem test_nest_width_zero_refused : Params.build { params with nestW := 0 } = none := by decide
theorem test_wait_constant_zero_refused : Params.build { params with coarseTicks := 0 } = none := by decide
theorem test_cmd_number_too_wide_refused : ¬ IsCmdNumber 0x800000000 := by decide
theorem test_table_word_too_wide_refused : decodeTableWord 40 0x800000000 = none := by decide
theorem test_every_instr_wf (t : Word) : (Instr.delta t).wf = true ∧ Instr.ticks.wf = true := ⟨rfl, rfl⟩

/-! ### Decode: words written bit by bit from R70 and R73 -/

theorem test_decode_ticks : decode 0b00000000000000000000000000000000000 = .command .ticks := by decide
theorem test_decode_delta : decode 0b00100000100000000000000000000000000 = .command (.delta 0x04000000) := by decide
theorem test_decode_chkdl : decode 0b01000000000000000000000001111101000 = .command (.chkdl 1000) := by decide
theorem test_decode_irqdis : decode 0b01111011110101011011011111011101111 = .command .irqdis := by decide
theorem test_decode_irqen : decode 0b10000000000000000000000000000000000 = .command .irqen := by decide
theorem test_decode_illegal : decode 0b11011111111111111111111111111111111 = .illegal 6 := by decide
theorem test_table_word_is_fetched :
    decodeTableWord 40 0x300000000 = some .irqdis ∧
      goesTo (step (State.reset.withFetchWord 40 0x300000000)) (fun t => t.nest == 1 && t.inputs == []) = true := by
  decide

/-! ### Text (R77, R79) -/

theorem test_assemble_R77 : assemble "DELTA  0x04000000     ; 1_04000000".toList = some 0x104000000#35 := by decide
theorem test_assemble_draws :
    assembleLine "IRQEN pin[0]=1 pin[1]=0".toList = some ⟨some .irqen, ⟨none, [(0, true), (1, false)]⟩⟩ := by decide
theorem test_assemble_source_spelling :
    assemble "check_deadline(1000) ; the source's own".toList = some 0x2000003E8#35 ∧
      assemble "enable()".toList = some 0x400000000#35 := by decide
theorem test_assemble_refuses :
    assemble "DELTA 0x0400_0000".toList = none ∧ assemble "TICKS raw=1 raw=2".toList = none ∧
      assemble "IRQEN pin[0]=1 pin[0]=0".toList = none ∧ assemble "ticks".toList = none ∧ assemble "IRQEN pin[0x1]=1".toList = none := by decide
theorem test_disassemble_illegal : disassemble 0x5DEADBEEF = "ILLEGAL 0x5_DEADBEEF".toList := by decide

/-! ### Steps: the vectors of 95_test_vectors.md -/

/-- V-T4: the seam falls, `EXT` counts one wrap. -/
theorem test_ticks_VT4 :
    goesTo (exec .ticks (clock 6 0x02 [0x00000010]))
      (fun t => t.ovf == 0x04 && t.responses == [⟨false, 0x04000000⟩]) = true := by decide

/-- V-T12: `E = 1`, the extension and the tick value wrap. -/
theorem test_ticks_VT12 :
    goesTo (exec .ticks (clock 1 0xC0 [0x00000002]))
      (fun t => t.ovf == 0x00 && t.responses == [⟨false, 0x00000001⟩]) = true := by decide

/-- P2 row 4: DELTA across the wrap of the tick value. -/
theorem test_delta_P2 :
    goesTo (exec (.delta 8) (clock 1 0xC0 [0xFFFFFFF0]))
      (fun t => t.ovf == 0xC0 && t.responses == [⟨false, 0x00000010⟩]) = true := by decide

/-- V-D3: one tick behind. -/
theorem test_delta_VD3 :
    goesTo (exec (.delta 0) (clock 6 0 [0x00000040])) (fun t => t.responses == [⟨false, 0xFFFFFFFF⟩]) = true := by decide

/-- L1-3: false strictly before the target. -/
theorem test_chkdl_before :
    goesTo (exec (.chkdl 0x41) (clock 6 0 [0x00001000])) (fun t => t.responses == [⟨false, 0⟩]) = true := by decide

/-- P2 row 6: CHKDL itself counts the wrap and answers 1. -/
theorem test_chkdl_P2 :
    goesTo (exec (.chkdl 8) (clock 1 0xC0 [0x00000010]))
      (fun t => t.ovf == 0x00 && t.responses == [⟨false, 1⟩]) = true := by decide

/-- V-G2: nested IRQDIS. -/
theorem test_irqdis_VG2 :
    goesTo (exec .irqdis (guard 1 [] [] []))
      (fun t => t.nest == 2 && t.ien == false && t.trace == [.hwIrqDisable] && t.responses == [⟨false, 0⟩]) = true := by
  decide

/-- V-G6: the counter is full. -/
theorem test_irqdis_VG6 :
    (match exec .irqdis (guard 255 [] [] []) with | .fault .nestOverflow => true | _ => false) = true := by decide

/-- V-P5 in a top-level IRQEN: mixed edges, the unused slot is skipped though its pin is high. -/
theorem test_irqen_VP5 :
    goesTo (exec .irqen (guard 1 [true, true, false] [false, true, false] [[true], [false], [true]]))
      (fun t => t.dio == [true, false, false] && t.trace == [.hwIrqEnable, .radioIrq 0] && t.ien && t.nest == 0 &&
        t.pinIn == [[], [], [true]]) = true := by decide

/-- V-G3 and V-G5: nested, and at depth 0. -/
theorem test_irqen_VG3_VG5 :
    goesTo (exec .irqen (guard 2 [true] [false] [[true]]))
      (fun t => t.nest == 1 && t.ien == false && t.trace == [] && t.dio == [false]) = true ∧
    (match exec .irqen (guard 0 [] [] []) with | .fault .nestUnderflow => true | _ => false) = true := by decide

/-- V-X1: an illegal opcode is answered `1_00000000` and changes nothing. -/
theorem test_illegal_VX1 :
    goesTo (step { State.reset with inputs := [.command 0x500000000] })
      (fun t => t == { State.reset with responses := [⟨true, 0⟩] }) = true ∧ rspWord ⟨true, 0⟩ = 0x100000000 := by decide

/-- V-R2 and P5: the configuration check fails, and a command is never answered. -/
theorem test_config_failure :
    let s := State.resetOf (cfg 6 [] 8 false)
    (s.failed && s.trace == [.fatal] && s.ien && s.nest == 0) = true ∧
      goesTo (step { s with inputs := [.command 0] }) (fun t => t == { s with inputs := [.command 0] }) = true := by decide

/-- P4: two coarse sleeps, then one fine sleep of 500 ticks of 16 us. -/
theorem test_wait_P4 :
    waitLoop { cfg 4 [] with maxChunkTicks := 1000, coarseMs := 16, coarseTicks := 1000, wait_pos := by decide } 3 2500 =
      some [.sleepMs 16, .sleepMs 16, .sleepUs 8000] := by decide

/-- R77: a line's draws are its own step's. A level on a nested IRQEN and a sample on IRQDIS are not drawn later. -/
theorem test_line_draws :
    let s : State := { guard 2 [true] [false] [] with
      inputs := [.line 0x400000000 ⟨none, [(0, true)]⟩, .line 0x400000000 ⟨none, [(0, false)]⟩] }
    let u : State := { State.reset with inputs := [.line 0x300000000 ⟨some 0x80, []⟩, .line 0 ⟨some 0x40, []⟩] }
    (match Host.Core.run core 2 s with | .next t => t.dio == [false] && t.pinIn == [] && t.ien | _ => false) = true ∧
      (match Host.Core.run core 2 u with
        | .next t => t.responses == [⟨false, 0⟩, ⟨false, 1⟩] && t.rawIn == [] | _ => false) = true := by decide

/-- R5's table of MASK. -/
theorem test_seam_masks : [1, 2, 3, 4, 5, 6, 7].map seamMask = [0x40, 0x20, 0x10, 0x08, 0x04, 0x02, 0x01] := by decide

/-! ### Witnesses: the hypotheses of each statement can be met -/

/-- A state with one command to come. -/
def one (w : CmdWord) : State := { State.reset with inputs := [.command w], rawIn := [0x80000000], pinIn := [[true], [false]] }

/-- A failed block with a command and then a reset to come. -/
def dead (l : List HostAction) : State := { State.resetOf (cfg 6 [true] 8 false) with inputs := l }

theorem witness_DecodeAndEncodeAgree : decode 0x0FFFFFFFF = .command .ticks ∧ decode 0x1FFFFFFFF = .command (.delta 0xFFFFFFFF) := by
  decide

theorem witness_OpcodeMapMatchesDecoder :
    (⟨"IRQEN", 0x700000000, 0x400000000⟩ : OpcodeRow) ∈ opcodeMap ∧ (opField 0x4FFFFFFFF).toNat < 5 ∧
      5 ≤ (opField 0x500000000).toNat := by decide

theorem witness_IgnoredArgIsTheOnlyFreedom :
    decode 0x000000001 = .command .ticks ∧ decode 0x0FFFFFFFF = .command .ticks ∧ (4 : BitVec 3).toNat < 5 := by decide

theorem witness_ResponseWordLayout : rspWord ⟨true, 7⟩ = rspWord ⟨true, 7⟩ := rfl

/-- A state with one line to come. -/
def oneLine (w : CmdWord) (d : Draws) : State := { one w with inputs := [.line w d] }

theorem witness_StepExecutesNextCommand :
    (one 0x100000005).failed = false ∧ (one 0x100000005).inputs = .command 0x100000005 :: [] ∧
      decode 0x100000005 = .command (.delta 5) ∧ (oneLine 0x100000005 ⟨some 1, []⟩).failed = false ∧
      (oneLine 0x100000005 ⟨some 1, []⟩).inputs = .line 0x100000005 ⟨some 1, []⟩ :: [] := by decide

theorem witness_QueuedCommandsRunInOrder : State.reset.failed = false := by decide

theorem witness_IllegalOpcodeIsRefusedInBand :
    (one 0x500000000).failed = false ∧ (one 0x500000000).inputs = .command 0x500000000 :: [] ∧
      5 ≤ (opField 0x500000000).toNat ∧ (oneLine 0x500000000 ⟨some 1, []⟩).inputs = .line 0x500000000 ⟨some 1, []⟩ :: [] := by
  decide

theorem witness_OneResponsePerAcceptedCommand :
    acceptedWord (one 0x700000000) = some 0x700000000 ∧ goesTo (step (one 0x700000000)) (fun _ => true) = true ∧
      acceptedWord (oneLine 0x200000000 ⟨some 1, []⟩) = some 0x200000000 ∧
      goesTo (step (oneLine 0x200000000 ⟨some 1, []⟩)) (fun _ => true) = true := by decide

theorem witness_FaultsExactlyOnNestingMisuse :
    (match step (one 0x400000000) with | .fault .nestUnderflow => true | _ => false) = true ∧
      (match step { one 0x300000000 with nest := 255 } with | .fault .nestOverflow => true | _ => false) = true ∧
      acceptedWord (one 0x400000000) = some 0x400000000 ∧ 2 ^ (one 0).cfg.nestW ≤ 255 + 1 := by decide

theorem witness_FailedBlockAcceptsNothing :
    (dead [.command 0]).failed = true ∧ HostAction.reset ∉ (dead [.command 0]).inputs ∧
      HostAction.reset ∉ [HostAction.command 0, .line 0 ⟨none, []⟩] ∧
      (dead [.command 0, .line 0 ⟨none, []⟩, .reset]).inputs = [.command 0, .line 0 ⟨none, []⟩] ++ .reset :: [] ∧
      goesTo (step (one 0)) (fun _ => true) = true ∧ HostAction.reset ∉ (one 0).inputs := by decide

theorem witness_TraceOnlyGrows :
    HostAction.reset ∉ (one 0x300000000).inputs ∧ goesTo (step (one 0x300000000)) (fun _ => true) = true := by decide

theorem witness_SeamUpdateCases :
    Instr.isTime (.chkdl 3) = true ∧
      (seamField 6 0x02 = true ∧ (0x10 : Word).getLsbD 31 = false) ∧
      (seamField 6 0x04 = false ∧ (0x80000000 : Word).getLsbD 31 = true) ∧
      (seamField 1 0x40 = true ∧ (0xFFFFFFFF : Word).getLsbD 31 = true) := by decide

theorem witness_TickValueStructure : ZeroClear (clock 6 0xFE [0x40]) ∧ ZeroClear (clock 7 0x01 [0x80]) := by decide

theorem witness_TicksExactUnderSamplingBound_exact :
    let prog : List (Instr × Nat) := [(.ticks, 2 ^ 31), (.delta 5, 2 ^ 32)]
    let s := clock 6 0 (prog.map (fun p => rawAt (2 ^ 31) p.2) ++ [])
    s.ovf = 0 ∧ 2 ^ 31 < 2 ^ 32 ∧ SampledInTime 0 (prog.map Prod.snd) ∧ (∀ p ∈ prog, p.1.isTime = true) ∧
      s.rawIn = prog.map (fun p => rawAt (2 ^ 31) p.2) ++ [] ∧ missedWraps (2 ^ 31) (prog.map Prod.snd) = 1 :=
  ⟨rfl, by decide, by simp [SampledInTime], by decide, rfl, by decide⟩

theorem witness_TicksExactUnderSamplingBound_gap :
    ZeroClear (clock 6 0x02 [0x80000000, 0x00000000]) ∧ 2 ^ 31 < 2 ^ 32 ∧ 2 ^ 31 ≤ 2 ^ 31 ∧
      (clock 6 0x02 [0x80000000, 0x00000000]).rawIn =
        BitVec.ofNat 32 (2 ^ 31) :: BitVec.ofNat 32 (2 ^ 31 + 2 ^ 31) :: [] := by decide

theorem witness_LongGapLosesWrap :
    (clock 6 0 [0xFFFFFFFF, 0x80000000]).cfg.e = 6 ∧ (clock 6 0 [0xFFFFFFFF, 0x80000000]).ovf = 0 ∧
      (clock 6 0 [0xFFFFFFFF, 0x80000000]).rawIn = 0xFFFFFFFF :: 0x80000000 :: [] := by decide

theorem witness_SameSampleChangesNothing :
    Instr.ticks.isTime = true ∧ (Instr.delta 4).isTime = true ∧ (clock 6 0 [7, 7]).rawIn = 7 :: 7 :: [] := by decide

theorem witness_DeltaIdentities :
    InWindow (-2 ^ 31) ∧ InWindow (2 ^ 31 - 1) ∧ ((0x7FFFFFFF : Word) - 0).toNat < 2 ^ 31 ∧ Instr.ticks.isTime = true := by
  decide

theorem witness_DeadlineWindow :
    goesTo (exec .ticks (clock 6 0 [0x40])) (fun u => u.responses == [⟨false, 1⟩]) = true ∧ (1 : Word) = BitVec.ofInt 32 1 ∧
      InWindow (2 ^ 31 - 1) ∧ ((2 : Int) ^ 31 ≤ 2 ^ 31 ∧ (2 : Int) ^ 31 < 2 ^ 32) ∧
      (-(2 : Int) ^ 32 < -2 ^ 31 - 1 ∧ -(2 : Int) ^ 31 - 1 < -2 ^ 31) := by decide

theorem witness_IrqdisResult :
    (guard 254 [] [] []).nest + 1 < 2 ^ (guard 254 [] [] []).cfg.nestW ∧
      (guard 255 [] [] []).nest = 2 ^ (guard 255 [] [] []).cfg.nestW - 1 := by decide

theorem witness_IrqenResult :
    2 ≤ (guard 2 [] [] []).nest ∧ (guard 1 [true] [false] []).nest = 1 ∧ DioSized (guard 1 [true] [false] []) ∧
      (guard 0 [] [] []).nest = 0 := by decide

theorem witness_GuardInvariantKept :
    GuardHolds (one 0x300000000) ∧ goesTo (step (one 0x300000000)) (fun _ => true) = true ∧
      GuardHolds { one 0x400000000 with nest := 1, ien := false } ∧
      goesTo (step { one 0x400000000 with nest := 1, ien := false }) (fun _ => true) = true := by decide

theorem witness_NestingReenablesOnce_rounds :
    let s := State.resetOf (cfg 6 [] 2)
    let is : List Instr := [.irqdis, .ticks, .irqdis, .irqdis, .irqen, .irqen, .delta 1, .irqen]
    s.nest = 0 ∧ 1 ≤ 3 ∧ 3 ≤ 2 ^ s.cfg.nestW - 1 ∧
      is.filter (fun i => !i.isTime) = List.replicate 3 .irqdis ++ List.replicate 3 .irqen ∧ is <+: is ∧
      is.take 5 <+: is := by decide

theorem witness_NestingReenablesOnce_balanced :
    let s := State.resetOf (cfg 6 [] 2)
    let is : List Instr := [.irqdis, .irqen, .irqdis, .irqdis, .irqen, .ticks, .irqen]
    GuardHolds s ∧ s.nest = 0 ∧ pairedFrom s.cfg.nestW 0 is = true ∧ depthAfter 0 is = 0 ∧ topLevelEnables 0 is = 2 := by
  decide

theorem witness_PairedCommandsComplete :
    pairedFrom (cfg 6 [] 1).nestW 0 [.irqdis, .chkdl 1, .irqen] = true ∧
      pairedFrom (cfg 6 [] 1).nestW 0 [.irqdis, .irqdis] = false ∧ pairedFrom (cfg 6 [] 1).nestW 0 [.irqen] = false := by
  decide

theorem witness_GuardedCodeKeepsPairing :
    let code : HostCode := .guarded (.cmd .ticks (.guarded .done .done)) (.cmd (.delta 1) .done)
    code.onlyGuarded = true ∧ 1 + code.depth < 2 ^ (cfg 6 [] 2).nestW := by decide

theorem witness_PollOnlyInTopLevelIrqen :
    IsTopLevelEnable .irqen (guard 1 [true] [false] [[true]]) ∧ ¬ IsTopLevelEnable .irqen (guard 2 [true] [false] [[true]]) ∧
      goesTo (exec .irqen (guard 1 [true] [false] [[true]])) (fun _ => true) = true ∧
      goesTo (exec .irqen (guard 2 [true] [false] [[true]])) (fun _ => true) = true := by decide

theorem witness_PollOnlyInTopLevelIrqen_step :
    let s : State := { oneLine 0x400000000 ⟨none, [(0, true)]⟩ with nest := 1, ien := false }
    StepsTopLevelEnable s ∧ goesTo (step s) (fun _ => true) = true ∧
      (¬ StepsTopLevelEnable (one 0x500000000) ∧ goesTo (step (one 0x500000000)) (fun _ => true) = true) ∧
      (¬ StepsTopLevelEnable (dead [.command 0, .reset]) ∧ StepsReset (dead [.command 0, .reset]) ∧
        goesTo (step (dead [.command 0, .reset])) (fun _ => true) = true) :=
  ⟨⟨⟨0x400000000, by decide, by decide⟩, rfl⟩, by decide, ⟨fun h => absurd h.2 (by decide), by decide⟩,
    fun h => absurd h.2 (by decide), by decide, by decide⟩

theorem witness_UnusedSlotIsNeverTouched :
    let s := guard 1 [true, false] [false, false] [[true], [true]]
    DioSized s ∧ s.cfg.isUsed 1 = false ∧ s.cfg.isUsed 2 = false ∧ goesTo (exec .irqen s) (fun _ => true) = true := by decide

theorem witness_PassEventsAscend : DioSized (guard 1 [true] [false] [[true]]) ∧ (guard 1 [true] [false] [[true]]).nest = 1 := by
  decide

theorem witness_EdgeDetectionSequence :
    let levels := [false, false, true, true, false, true]
    let s := guard 0 [true] [false] [levels]
    DioSized s ∧ s.nest = 0 ∧ s.cfg.isUsed 0 = true ∧ s.pinIn.getD 0 [] = levels ++ [] ∧ levels[5]? = some true ∧
      levels[0]? = some false ∧ risings false levels = 2 := by decide

theorem witness_HighAtStartIsRisingEdge :
    (cfg 6 [false, true]).isUsed 1 = true ∧ (([[], [true]] : List (List Bool)).getD 1 []).head? = some true := by decide

theorem witness_ResetRestoresEverything :
    { State.reset with inputs := [.reset, .command 0] }.inputs = .reset :: [.command 0] ∧
      (dead [.reset]).inputs = .reset :: [] := by decide

theorem witness_InstanceNeedsLegalParameters : ∃ c, params.build = some c ∧ c.e = 6 := ⟨_, rfl, rfl⟩

theorem witness_KeptInvariant :
    Inv { one 0x400000000 with nest := 1, ien := false } ∧ Inv (dead [.command 0, .reset]) ∧
      goesTo (step { one 0x400000000 with nest := 1, ien := false }) (fun _ => true) = true := by decide

theorem witness_RegistersWrittenByTheirCommandsOnly :
    goesTo (exec .irqdis State.reset) (fun _ => true) = true ∧ Instr.irqdis.isTime = false ∧
      goesTo (exec .ticks (clock 6 0 [1])) (fun _ => true) = true ∧ Instr.ticks.isTime = true ∧
      Instr.irqen ≠ .irqdis ∧ ¬ IsTopLevelEnable .irqen (guard 2 [] [] []) ∧
      goesTo (exec .irqen (guard 2 [] [] [])) (fun _ => true) = true := by decide

theorem witness_AnswersDependOnClockOnly :
    let s := clock 6 2 [0x10, 0x20]
    let u := { s with nest := 2, ien := false, trace := [.hwIrqDisable] }
    (∀ i ∈ [Instr.ticks, .delta 3], i.isTime = true) ∧ s.cfg = u.cfg ∧ s.ovf = u.ovf ∧ s.rawIn = u.rawIn ∧
      s.rawDraws = u.rawDraws := by decide

theorem witness_WaitUntilIssuesOneDelta : State.reset.failed = false ∧ (dead []).failed = true := by decide

theorem witness_WaitSleepsMatchDelta :
    let c : Config := { cfg 6 [] with coarseTicks := 2 ^ 33, wait_pos := by decide }
    InWindow (-2 ^ 31) ∧ InWindow (2 ^ 31 - 1) ∧ (cfg 6 []).coarseTicks ≤ 2 ^ 31 ∧ (251 : Int).toNat < 252 ∧
      (c.maxChunkTicks : Int) < 251 ∧ (251 : Int) - c.coarseTicks < -2 ^ 31 := by decide

theorem witness_LineFixesDrawsOfItsStep :
    let s := oneLine (encode .ticks) ⟨some 0x40, []⟩
    let u : State := { oneLine (encode .irqen) ⟨none, [(0, true)]⟩ with nest := 1 }
    s.failed = false ∧ s.inputs = .line (encode .ticks) ⟨some 0x40, []⟩ :: [] ∧ Instr.ticks.isTime = true ∧
      u.failed = false ∧ u.inputs = .line (encode .irqen) ⟨none, [(0, true)]⟩ :: [] ∧ u.nest = 1 ∧ DioSized u ∧
      goesTo (step s) (fun _ => true) = true := by decide

end Sys2Proof.Tests
end

section
/-! PROOFS. Building a configuration from its parameters (spec/00_scope.md R4, spec/70_reset_and_hazards.md R201). -/

namespace Sys2Proof

/-- The parameters a configuration was built with. -/
def Config.params (c : Config) : Params where
  e := c.e
  used := c.used
  cfgOk := c.cfgOk
  nestW := c.nestW
  maxChunkTicks := c.maxChunkTicks
  coarseMs := c.coarseMs
  coarseTicks := c.coarseTicks

namespace Params

/-- A configuration carries the proofs that its parameters pass the check, so they build it again. -/
theorem build_params (c : Config) : c.params.build = some c := dif_pos ⟨c.e_range, c.nestW_pos, c.wait_pos⟩

theorem exists_build_of_legal {p : Params} (h : p.ScaleOk ∧ p.WidthOk ∧ p.WaitOk) : ∃ c, p.build = some c :=
  ⟨_, dif_pos h⟩

/-- The build keeps every parameter. -/
theorem params_of_build {p : Params} {c : Config} (h : p.build = some c) : c.params = p := by
  unfold build at h
  split at h
  · cases h
    rfl
  · cases h

theorem build_eq_some_iff {p : Params} {c : Config} : p.build = some c ↔ c.params = p := by
  constructor
  · exact params_of_build
  · rintro rfl
    exact build_params c

end Params

/-- Settles O36: the parameters of a configuration are exactly those that build it, and it carries their legality. -/
theorem instanceNeedsLegalParameters : Obligations.InstanceNeedsLegalParameters := by
  intro p
  refine ⟨⟨?_, Params.exists_build_of_legal⟩, ?_⟩
  · rintro ⟨c, hc⟩
    obtain rfl := Params.build_eq_some_iff.mp hc
    exact ⟨c.e_range, c.nestW_pos, c.wait_pos⟩
  · intro c hc
    obtain rfl := Params.build_eq_some_iff.mp hc
    exact ⟨rfl, rfl, rfl, rfl, rfl, rfl, rfl⟩

end Sys2Proof
end

section
/-! PROOFS. The command port: what a ready block does with the host's next word (spec/00_scope.md R8, spec/30_encoding.md R73, R77). -/

namespace Sys2Proof.Machine

theorem decode_encode (i : Instr) : decode (encode i) = .command i := by
  cases i <;> exact decode_cmdWord _ _

theorem accept_of_decode {w : CmdWord} {i : Instr} (hd : decode w = .command i) (s : State) :
    accept w s = exec i s := by
  rw [accept, hd]

/-- A ready block takes the host's next word from the queue and accepts it (R8). -/
theorem step_command {s : State} {w : CmdWord} {rest : List HostAction} (hf : s.failed = false)
    (hi : s.inputs = .command w :: rest) : step s = accept w (s.setInputs rest) := by
  simp [step, servePort, servePortReady, hf, hi]

/-- A ready block takes the host's next line from the queue and accepts it under its draws (R77). -/
theorem step_line {s : State} {w : CmdWord} {d : Draws} {rest : List HostAction} (hf : s.failed = false)
    (hi : s.inputs = .line w d :: rest) : step s = acceptLine w d (s.setInputs rest) := by
  simp [step, servePort, servePortReady, hf, hi]

/-- Settles O7: the port accepts the word it takes from the queue, and accepting a legal word is `exec`; for a line,
between the setting of its draws and the giving back of the environment. -/
theorem stepExecutesNextCommand : Obligations.StepExecutesNextCommand := by
  constructor
  · intro s w rest i hf hi hd
    rw [step_command hf hi, accept_of_decode hd]
    rfl
  · intro s w d rest i hf hi hd
    rw [step_line hf hi, acceptLine, accept_of_decode hd]
    rfl

end Sys2Proof.Machine
end

section
/-! PROOFS. A command reads nothing of the host's further actions, so a queue of commands runs as the commands one after the other (spec/00_scope.md R8, spec/20_memory.md R57). -/

namespace Sys2Proof.Machine

/-- An outcome with its next state, if it has one, changed by `f`. -/
def mapNext (f : State → State) : Host.Outcome State Fault Refusal → Host.Outcome State Fault Refusal
  | .next s => .next (f s)
  | .fault r => .fault r
  | .refused r => .refused r

/-! ### Commands commute with a change of the host's actions -/

theorem pollSlot_setInputs (l : List HostAction) (s : State) (i : Nat) :
    pollSlot (s.setInputs l) i = (pollSlot s i).setInputs l := by
  simp only [pollSlot, deliverPinEvent, apply_ite (State.setInputs l)]
  rfl

theorem poll_setInputs (l : List HostAction) (s : State) : poll (s.setInputs l) = (poll s).setInputs l := by
  have hpass : (List.range s.cfg.numDio).foldl pollSlot (s.setInputs l) =
      ((List.range s.cfg.numDio).foldl pollSlot s).setInputs l :=
    List.foldl_hom (State.setInputs l) (pollSlot_setInputs l)
  exact congrArg State.countPoll hpass

theorem enableAndPoll_setInputs (l : List HostAction) (s : State) :
    enableAndPoll (s.setInputs l) = (enableAndPoll s).setInputs l :=
  poll_setInputs l ((s.emit .hwIrqEnable).setIen true)

/-- A top-level IRQEN in every state: its POLL pass by name (R131). -/
theorem exec_irqen_top_eq_enableAndPoll (s : State) (h : s.nest = 1) :
    exec .irqen s = .next ((enableAndPoll (s.setNest 0)).respond false 0) := by
  simp [exec, execIrqen, h]

/-- A command reads and writes nothing of the host's further actions (R8). -/
theorem exec_setInputs (i : Instr) (l : List HostAction) (s : State) :
    exec i (s.setInputs l) = mapNext (State.setInputs l) (exec i s) := by
  cases i with
  | ticks => rfl
  | delta target => rfl
  | chkdl target => rfl
  | irqdis =>
    by_cases hroom : s.nest + 1 < 2 ^ s.cfg.nestW
    · rw [exec_irqdis_eq s hroom, exec_irqdis_eq (s.setInputs l) hroom]
      rfl
    · rw [exec_irqdis_overflow s (Nat.not_lt.mp hroom), exec_irqdis_overflow (s.setInputs l) (Nat.not_lt.mp hroom)]
      rfl
  | irqen =>
    obtain h0 | h1 | h2 : s.nest = 0 ∨ s.nest = 1 ∨ 2 ≤ s.nest := by omega
    · rw [exec_irqen_underflow s h0, exec_irqen_underflow (s.setInputs l) h0]
      rfl
    · rw [exec_irqen_top_eq_enableAndPoll s h1, exec_irqen_top_eq_enableAndPoll (s.setInputs l) h1]
      exact congrArg (fun u => Host.Outcome.next (State.respond false 0 u)) (enableAndPoll_setInputs l (s.setNest 0))
    · rw [exec_irqen_nested s h2, exec_irqen_nested (s.setInputs l) h2]
      rfl

/-! ### Runs of queued commands -/

/-- The host's actions that present the commands `is`, in their canonical encoding, ahead of `rest`. -/
def queued (is : List Instr) (rest : List HostAction) : List HostAction :=
  is.map (fun i => .command (encode i)) ++ rest

theorem step_queued_cons {s : State} (hf : s.failed = false) (i : Instr) (is : List Instr) (rest : List HostAction) :
    step (s.setInputs (queued (i :: is) rest)) = mapNext (State.setInputs (queued is rest)) (exec i s) := by
  calc step (s.setInputs (queued (i :: is) rest))
      = accept (encode i) (s.setInputs (queued is rest)) := step_command (s := s.setInputs _) hf rfl
    _ = exec i (s.setInputs (queued is rest)) := accept_of_decode (decode_encode i) _
    _ = mapNext (State.setInputs (queued is rest)) (exec i s) := exec_setInputs i _ s

theorem run_queued (is : List Instr) (rest : List HostAction) (s : State) (hf : s.failed = false) :
    Host.Core.run core is.length (s.setInputs (queued is rest)) = runAll is (s.setInputs rest) := by
  induction is generalizing s with
  | nil => rfl
  | cons i is ih =>
    have hstep : core.step (s.setInputs (queued (i :: is) rest)) =
        mapNext (State.setInputs (queued is rest)) (exec i s) := step_queued_cons hf i is rest
    simp only [List.length_cons, Host.Core.run]
    rw [hstep, runAll, exec_setInputs]
    cases he : exec i s with
    | next t =>
      obtain ⟨-, hfailed, -⟩ := exec_frame he
      exact ih t (hfailed.trans hf)
    | fault f => rfl
    | refused r => rfl

/-- Settles O8, by induction on the queued commands: a step is the first command at the shorter queue, which it does
not read. -/
theorem queuedCommandsRunInOrder : Obligations.QueuedCommandsRunInOrder := by
  intro s is rest hf
  exact run_queued is rest s hf

end Sys2Proof.Machine
end

section
/-! PROOFS. Reset, and the port while `FAILED = 1` (spec/10_state.md R28, spec/60_exceptions.md R171, spec/70_reset_and_hazards.md R200, R202). -/

namespace Sys2Proof.Machine

theorem afterReset_eq_none {l : List HostAction} (h : HostAction.reset ∉ l) : afterReset l = none := by
  cases ha : afterReset l with
  | none => rfl
  | some rest => exact absurd (reset_mem_of_afterReset ha) h

/-- What waits ahead of the first reset is dropped (log entry 4). -/
theorem afterReset_append_reset {waiting : List HostAction} (h : HostAction.reset ∉ waiting)
    (rest : List HostAction) : afterReset (waiting ++ .reset :: rest) = some rest := by
  induction waiting with
  | nil => rfl
  | cons a waiting ih =>
    obtain ⟨ha, hw⟩ := not_or.mp (mt List.mem_cons.mpr h)
    cases a with
    | command w => exact ih hw
    | line w d => exact ih hw
    | reset => exact absurd rfl ha

/-- A failed block with no reset to come stands still (R28). -/
theorem step_failed_wait {s : State} (hf : s.failed = true) (hr : HostAction.reset ∉ s.inputs) : step s = .next s := by
  simp [step, servePort, servePortFailed, hf, afterReset_eq_none hr]

/-- A failed block takes the first reset to come (R28, R200). -/
theorem step_failed_reset {s : State} {rest : List HostAction} (hf : s.failed = true)
    (hr : afterReset s.inputs = some rest) : step s = .next (restart (s.setInputs rest)) := by
  simp [step, servePort, servePortFailed, hf, hr]

/-- A reset that comes next happens in every state, failed or not (R200). -/
theorem step_reset {s : State} {rest : List HostAction} (hi : s.inputs = .reset :: rest) :
    step s = .next (restart (s.setInputs rest)) := by
  cases hf : s.failed with
  | true => exact step_failed_reset hf (by rw [hi]; rfl)
  | false => simp [step, servePort, servePortReady, hf, hi]

theorem run_failed_wait {s : State} (hf : s.failed = true) (hr : HostAction.reset ∉ s.inputs) (k : Nat) :
    Host.Core.run core k s = .next s := by
  induction k with
  | zero => rfl
  | succ k ih =>
    have hstep : core.step s = .next s := step_failed_wait hf hr
    simp only [Host.Core.run]
    rw [hstep]
    exact ih

/-- Settles O35: a reset that comes next is `restart`, which is the state written out. -/
theorem resetRestoresEverything : Obligations.ResetRestoresEverything := by
  intro s rest hi
  exact step_reset hi

end Sys2Proof.Machine
end

section
/-! PROOFS. What a command writes and what it leaves alone (spec/10_state.md R22 to R31), and that between resets no step does more. -/

namespace Sys2Proof.Machine

@[simp] theorem tickStep_fst (s : State) :
    (tickStep s).1 = tickValue s.cfg.e (rawSample s) (ovfUpdate s.cfg.e (rawSample s) s.ovf) := rfl

@[simp] theorem tickStep_snd (s : State) :
    (tickStep s).2 = s.takeRaw.setOvf (ovfUpdate s.cfg.e (rawSample s) s.ovf) := rfl

/-- A command only appends to the trace, and what it appends is in the block's alphabet and never `Fatal` (R31, R171). -/
theorem exec_trace {i : Instr} {s t : State} (h : exec i s = .next t) :
    ∃ added, t.trace = s.trace ++ added ∧ .fatal ∉ added ∧ ∀ ev ∈ added, eventAllowed s.cfg ev = true := by
  rcases exec_cases h with ⟨_, rfl⟩ | ⟨_, _, rfl⟩ | ⟨_, _, rfl⟩ | ⟨_, _, _, _, slots, _, hused, rfl⟩
  · exact ⟨[], by simp⟩
  · exact ⟨[.hwIrqDisable], by simp [eventAllowed]⟩
  · exact ⟨[], by simp⟩
  · refine ⟨.hwIrqEnable :: slots.map .radioIrq, rfl, by simp, ?_⟩
    have hradio : ∀ j ∈ slots, eventAllowed s.cfg (.radioIrq j) = true := fun j hj => by
      simp [eventAllowed, hused j hj, isUsed_lt (hused j hj)]
    simpa [eventAllowed] using hradio

/-- An accepted word keeps `FAILED` (R28) and the trace so far (R31). -/
theorem accept_failed_trace {w : CmdWord} {s t : State} (h : accept w s = .next t) :
    t.failed = s.failed ∧ s.trace <+: t.trace := by
  rcases accept_cases h with ⟨_, rfl⟩ | ⟨i, _, hi⟩
  · exact ⟨rfl, List.prefix_rfl⟩
  · obtain ⟨-, hfailed, -⟩ := exec_frame hi
    obtain ⟨added, htrace, -⟩ := exec_trace hi
    exact ⟨hfailed, added, htrace.symm⟩

/-- With no reset to come a step keeps `FAILED` (R28) and the trace so far (R31). -/
theorem step_failed_trace_of_noReset {s t : State} (hr : HostAction.reset ∉ s.inputs) (h : step s = .next t) :
    t.failed = s.failed ∧ s.trace <+: t.trace := by
  rcases step_cases h with rfl | ⟨_, hmem, _⟩ | ⟨_, _, _, _, ha⟩ | ⟨_, _, _, _, _, _, ha, rfl⟩
  · exact ⟨rfl, List.prefix_rfl⟩
  · exact absurd hmem hr
  · exact (accept_failed_trace ha :)
  · exact (accept_failed_trace ha :)

/-- Settles O12: a failed block waits or takes the first reset to come, and no step but a reset writes `FAILED`. -/
theorem failedBlockAcceptsNothing : Obligations.FailedBlockAcceptsNothing := by
  refine ⟨fun s k hf hr => run_failed_wait hf hr k, fun s t hr h => (step_failed_trace_of_noReset hr h).1, ?_,
    State.resetOf_failed, State.restart_failed⟩
  intro s waiting rest hf hw hi
  exact step_failed_reset hf (by rw [hi, afterReset_append_reset hw])

/-- Settles O13: every command appends to the trace. -/
theorem traceOnlyGrows : Obligations.TraceOnlyGrows :=
  fun _ _ hr h => (step_failed_trace_of_noReset hr h).2

/-- Settles O39, by the four ways a command has a next state. -/
theorem registersWrittenByTheirCommandsOnly : Obligations.RegistersWrittenByTheirCommandsOnly := by
  intro s t i h
  refine ⟨exec_frame h, ?_⟩
  rcases exec_cases h with ⟨ht, rfl⟩ | ⟨rfl, _, rfl⟩ | ⟨rfl, _, rfl⟩ | ⟨rfl, hn, _, _, _, _, _, rfl⟩
  · simp [ht]
  · simp [Instr.isTime]
  · simp [Instr.isTime]
  · simp [Instr.isTime, hn]

end Sys2Proof.Machine
end

section
/-! PROOFS. The invariant: reset meets it and every step keeps it (spec/10_state.md R23 to R31, spec/60_exceptions.md R171, spec/70_reset_and_hazards.md R211). -/

namespace Sys2Proof.Machine

theorem guardHolds_resetOf (c : Config) : GuardHolds (State.resetOf c) := by simp [GuardHolds]

theorem inv_resetOf (c : Config) : Inv (State.resetOf c) := by
  refine ⟨?nest, guardHolds_resetOf c, ?dio, ?unused, ?zero, rfl, ?trace, ?fatal, ?dead⟩
  case nest => exact Nat.two_pow_pos c.nestW
  case dio => exact List.length_replicate
  case unused =>
    intro i hi _
    have hi : i < c.numDio := hi
    simp [dioAt, hi]
  case zero => simp [ZeroClear, zeroField]
  case trace => cases hc : c.cfgOk <;> simp [TraceAllowed, eventAllowed, hc]
  case fatal => cases hc : c.cfgOk <;> simp [FatalOnce, hc]
  case dead =>
    intro hf
    have hc : c.cfgOk = false := by simpa using hf
    simp [hc]

/-- The invariant speaks of the block's registers only, which a reset of a running block sets as `State.resetOf` does. -/
theorem inv_restart (s : State) : Inv (restart s) := inv_resetOf s.cfg

/-- Settles O37: the standard configuration is one among all. -/
theorem resetMeetsInvariant : Obligations.ResetMeetsInvariant := ⟨inv_resetOf, inv_resetOf Config.standard⟩

/-! ### What commands keep -/

theorem exec_keeps_guardHolds {i : Instr} {s t : State} (h : exec i s = .next t) (hs : GuardHolds s) :
    GuardHolds t := by
  rcases exec_cases h with ⟨_, rfl⟩ | ⟨_, _, rfl⟩ | ⟨_, hn, rfl⟩ | ⟨_, _, _, _, _, _, _, rfl⟩
  · exact hs
  · simp [GuardHolds]
  · have hn' : s.nest = 0 ↔ s.nest - 1 = 0 := by omega
    exact Iff.trans hs hn'
  · simp [GuardHolds]

/-- Settles O26: IRQDIS and a top-level IRQEN set both sides of the equivalence, a nested IRQEN neither. -/
theorem guardInvariantKept : Obligations.GuardInvariantKept := by
  refine ⟨guardHolds_resetOf, fun s t hs h => ?_⟩
  exact step_keeps (P := GuardHolds) (fun _ _ hu => hu) (fun _ _ _ hu => hu) (fun u _ => guardHolds_resetOf u.cfg)
    (fun _ _ hu => hu) (fun _ _ _ _ hu he => exec_keeps_guardHolds he hu) hs h

theorem exec_keeps_nestInRange {i : Instr} {s t : State} (h : exec i s = .next t) (hs : NestInRange s) :
    NestInRange t := by
  rcases exec_cases h with ⟨_, rfl⟩ | ⟨_, hroom, rfl⟩ | ⟨_, _, rfl⟩ | ⟨_, _, _, _, _, _, _, rfl⟩
  · exact hs
  · exact hroom
  · exact lt_of_le_of_lt (Nat.sub_le _ _) hs
  · exact Nat.two_pow_pos s.cfg.nestW

theorem exec_keeps_dioSized {i : Instr} {s t : State} (h : exec i s = .next t) (hs : DioSized s) : DioSized t := by
  rcases exec_cases h with ⟨_, rfl⟩ | ⟨_, _, rfl⟩ | ⟨_, _, rfl⟩ | ⟨_, _, _, _, _, hlen, _, rfl⟩
  · exact hs
  · exact hs
  · exact hs
  · exact hlen.trans hs

/-- `DIO[i]` of the pin file a pass leaves (R154). -/
theorem polledDio_getD {s : State} {i : Nat} (hi : i < s.cfg.numDio) :
    (polledDio s).getD i false = polledLevel s i := by
  simp [polledDio, hi]

/-- A command leaves the level of an unused slot as it is (R152). -/
theorem exec_dioAt_of_unused {i : Instr} {s t : State} (h : exec i s = .next t) (hs : DioSized s) {k : Nat}
    (hk : k < s.cfg.numDio) (hu : s.cfg.isUsed k = false) : dioAt t k = dioAt s k := by
  rcases exec_cases h with ⟨_, rfl⟩ | ⟨_, _, rfl⟩ | ⟨_, _, rfl⟩ | ⟨rfl, hn, _⟩
  · rfl
  · rfl
  · rfl
  · rw [exec_irqen_top s hn hs, Host.Outcome.next.injEq] at h
    subst h
    calc (polledDio s).getD k false
        = polledLevel s k := polledDio_getD hk
      _ = dioAt s k := by simp [polledLevel, hu]

theorem exec_keeps_unusedLow {i : Instr} {s t : State} (h : exec i s = .next t) (hs : DioSized s)
    (hlow : UnusedLow s) : UnusedLow t := by
  obtain ⟨hcfg, -, -⟩ := exec_frame h
  intro k hk hu
  rw [hcfg] at hk hu
  exact (exec_dioAt_of_unused h hs hk hu).trans (hlow k hk hu)

theorem exec_keeps_zeroClear {i : Instr} {s t : State} (h : exec i s = .next t) (hs : ZeroClear s) : ZeroClear t := by
  rcases exec_cases h with ⟨_, rfl⟩ | ⟨_, _, rfl⟩ | ⟨_, _, rfl⟩ | ⟨_, _, _, _, _, _, _, rfl⟩
  · exact (ovfUpdate_zero s.cfg.e s.cfg.e_range (rawSample s) s.ovf).trans hs
  · exact hs
  · exact hs
  · exact hs

theorem exec_keeps_traceAllowed {i : Instr} {s t : State} (h : exec i s = .next t) (hs : TraceAllowed s) :
    TraceAllowed t := by
  obtain ⟨hcfg, -, -⟩ := exec_frame h
  obtain ⟨added, htrace, -, hadded⟩ := exec_trace h
  intro ev hev
  rw [htrace, List.mem_append] at hev
  rw [hcfg]
  exact hev.elim (hs ev) (hadded ev)

theorem exec_keeps_fatalOnce {i : Instr} {s t : State} (h : exec i s = .next t) (hs : FatalOnce s) : FatalOnce t := by
  obtain ⟨-, hfailed, -⟩ := exec_frame h
  obtain ⟨added, htrace, hfatal, -⟩ := exec_trace h
  show t.trace.count .fatal = t.failed.toNat
  rw [htrace, hfailed, List.count_append, List.count_eq_zero_of_not_mem hfatal]
  exact hs

theorem exec_keeps_inv {i : Instr} {s t : State} (hf : s.failed = false) (hs : Inv s) (h : exec i s = .next t) :
    Inv t := by
  obtain ⟨hnest, hguard, hdio, hlow, hzero, hconfig, htrace, hfatal, -⟩ := hs
  obtain ⟨hcfg, hfailed, -⟩ := exec_frame h
  have hconfig' : FailedIffBadConfig t := by
    show t.failed = !t.cfg.cfgOk
    rw [hfailed, hcfg]
    exact hconfig
  have hdead : DeadAsReset t := fun ht => by simp [hfailed, hf] at ht
  exact ⟨exec_keeps_nestInRange h hnest, exec_keeps_guardHolds h hguard, exec_keeps_dioSized h hdio,
    exec_keeps_unusedLow h hdio hlow, exec_keeps_zeroClear h hzero, hconfig', exec_keeps_traceAllowed h htrace,
    exec_keeps_fatalOnce h hfatal, hdead⟩

/-- A refused word writes the response record alone, of which the invariant speaks only in a failed block. -/
theorem respond_keeps_inv {s : State} (hf : s.failed = false) (hs : Inv s) (err : Bool) (data : Word) :
    Inv (s.respond err data) := by
  obtain ⟨hnest, hguard, hdio, hlow, hzero, hconfig, htrace, hfatal, -⟩ := hs
  exact ⟨hnest, hguard, hdio, hlow, hzero, hconfig, htrace, hfatal, fun ht => by simp [hf] at ht⟩

/-- Settles O38: a reset establishes the invariant, commands and refusals keep it in a block that has not failed, and a
failed block does nothing else. -/
theorem keptInvariant : Obligations.KeptInvariant := by
  intro s t hs h
  exact step_keeps (P := Inv) (fun _ _ hu => hu) (fun _ _ _ hu => hu) (fun u _ => inv_restart u)
    (fun _ hf hu => respond_keeps_inv hf hu true 0) (fun _ _ _ hf hu he => exec_keeps_inv hf hu he) hs h

end Sys2Proof.Machine
end

section
/-! PROOFS. One tick_step: the cases of the seam, the structure of the tick value (spec/40_tickclock.md R92, R93), and the one WAIT_UNTIL makes (spec/41_deadline.md R114). -/

namespace Sys2Proof.Machine

theorem ovfUpdate_of_seam_eq (e : Nat) (he : 0 < e ∧ e < 8) {raw : Word} {ovf : Byte}
    (h : seamField e ovf = raw.getLsbD 31) : ovfUpdate e raw ovf = ovf := by
  simp [ovfUpdate, seamAddend_eq e he, h]

theorem ovfUpdate_of_seam_ne (e : Nat) (he : 0 < e ∧ e < 8) {raw : Word} {ovf : Byte}
    (h : seamField e ovf ≠ raw.getLsbD 31) : ovfUpdate e raw ovf = ovf + seamMask e := by
  have hne : (raw.getLsbD 31 != seamField e ovf) = true := bne_iff_ne.mpr h.symm
  rw [ovfUpdate, seamAddend_eq e he, hne, if_pos rfl]

/-- `EXT` has `E` bits (R23). -/
theorem extField_lt (e : Nat) (he : 0 < e ∧ e < 8) (ovf : Byte) : extField e ovf < 2 ^ e := by
  rw [extField, Nat.div_lt_iff_lt_mul (Nat.two_pow_pos _), ← pow_add]
  have hsum : e + (8 - e) = 8 := by omega
  rw [hsum]
  exact ovf.isLt

/-- Settles O15: the addend is `MASK` exactly where the seam bits differ, and `EXT` counts exactly the falls. -/
theorem seamUpdateCases : Obligations.SeamUpdateCases := by
  intro s i hi
  have he := s.cfg.e_range
  have hext := ovfUpdate_ext s.cfg.e he (rawSample s) s.ovf
  refine ⟨_, exec_time_eq hi s, ovfUpdate_seam _ he _ _, ovfUpdate_zero _ he _ _, ?equal, ?rise, ?fall⟩
  case equal => exact ovfUpdate_of_seam_eq _ he
  case rise =>
    intro hold hnew
    rw [hold, hnew] at hext
    exact ⟨ovfUpdate_of_seam_ne _ he (by rw [hold, hnew]; decide),
      hext.trans (Nat.mod_eq_of_lt (extField_lt _ he s.ovf))⟩
  case fall =>
    intro hold hnew
    rw [hold, hnew] at hext
    exact ⟨ovfUpdate_of_seam_ne _ he (by rw [hold, hnew]; decide), hext⟩

/-- The scaled sample has `32 - E` bits (R90). -/
theorem scaled_lt (e : Nat) (he : 0 < e ∧ e < 8) (raw : Word) : raw.toNat / 2 ^ e < 2 ^ (32 - e) := by
  rw [Nat.div_lt_iff_lt_mul (Nat.two_pow_pos _), ← pow_add]
  have hsum : 32 - e + e = 32 := by omega
  rw [hsum]
  exact raw.isLt

/-- Settles O16: the new seam bit is the sampled one and `ZERO` is still clear, so the value is a sum of two fields that
do not overlap. -/
theorem tickValueStructure : Obligations.TickValueStructure := by
  intro s hzero
  have he := s.cfg.e_range
  have hval := tickValue_toNat s.cfg.e he (rawSample s) _ (ovfUpdate_seam _ he _ s.ovf)
    ((ovfUpdate_zero _ he _ s.ovf).trans hzero)
  have hlow := scaled_lt s.cfg.e he (rawSample s)
  refine ⟨_, _, exec_time_eq rfl s, rfl, hval, ?ext, ?low⟩
  case ext =>
    rw [answerData, tickStep_fst, hval, Nat.add_mul_div_right _ _ (Nat.two_pow_pos _), Nat.div_eq_of_lt hlow,
      Nat.zero_add]
    rfl
  case low =>
    rw [answerData, tickStep_fst, hval, Nat.add_mul_mod_self_right, Nat.mod_eq_of_lt hlow]

/-- Settles O41: the one word WAIT_UNTIL presents decodes to its DELTA, whose answer is the last one on record. -/
theorem waitUntilIssuesOneDelta : Obligations.WaitUntilIssuesOneDelta := by
  intro s target turns
  constructor
  · intro hf
    have hdelta := exec_time_eq (i := .delta target) rfl s
    refine ⟨_, _, hdelta, rfl, rfl, ?_⟩
    simp [waitUntil, hf, accept_of_decode (decode_encode _), hdelta]
  · intro hf
    simp [waitUntil, hf]

end Sys2Proof.Machine
end

section
/-! PROOFS. The samples time commands draw from the raw counter: equal samples, and exactness under the sampling bound (spec/20_memory.md R55, R60, spec/40_tickclock.md R94). -/

namespace Sys2Proof.Machine

/-- A time command whose sample is known: what it takes, what `OVF` becomes and what it answers. -/
theorem exec_time_of_rawIn {i : Instr} {s : State} {raw : Word} {rest : List Word} (hi : i.isTime = true)
    (hraw : s.rawIn = raw :: rest) :
    ∃ t, exec i s = .next t ∧ t.cfg = s.cfg ∧ t.rawIn = rest ∧ t.ovf = ovfUpdate s.cfg.e raw s.ovf ∧
      t.responses = s.responses ++ [⟨false, answerData i (tickValue s.cfg.e raw t.ovf)⟩] :=
  ⟨_, exec_time_eq hi s, by simp [rawSample, hraw]⟩

/-- A second tick_step with the same sample finds the seam bits equal (R55). -/
theorem ovfUpdate_idem (e : Nat) (he : 0 < e ∧ e < 8) (raw : Word) (ovf : Byte) :
    ovfUpdate e raw (ovfUpdate e raw ovf) = ovfUpdate e raw ovf :=
  ovfUpdate_of_seam_eq e he (ovfUpdate_seam e he raw ovf)

/-- Settles O19: the first command leaves the seam bit of the sample, so the second adds nothing. -/
theorem sameSampleChangesNothing : Obligations.SameSampleChangesNothing := by
  intro s i j raw rest hi hj hraw
  obtain ⟨t, ht, hcfg, htraw, htovf, htrsp⟩ := exec_time_of_rawIn hi hraw
  obtain ⟨u, hu, -, -, huovf, hursp⟩ := exec_time_of_rawIn hj htraw
  have hsame : u.ovf = t.ovf := by rw [huovf, hcfg, htovf, ovfUpdate_idem _ s.cfg.e_range]
  rw [hsame, hcfg] at hursp
  exact ⟨t, u, _, ht, hu, hsame, htrsp, hursp⟩

/-! ### `OVF` follows a counter that does not wrap -/

/-- `OVF` holds what tick_step needs of a microsecond counter at `c` that does not wrap: the bit 31 of `c` and, modulo
`2^E`, its wraps modulo 2^32 (R23, R94). -/
structure Tracks (e c : Nat) (ovf : Byte) : Prop where
  zero : zeroField e ovf = 0
  seam : seamField e ovf = c.testBit 31
  ext : extField e ovf = c / 2 ^ 32 % 2 ^ e

theorem ofNat_getLsbD31 (c : Nat) : (BitVec.ofNat 32 c).getLsbD 31 = c.testBit 31 := by
  rw [BitVec.getLsbD_ofNat]
  rfl

/-- A counter that moves at most `2^31` on wraps exactly if its bit 31 falls (R94). -/
theorem wraps_of_gap {c c' : Nat} (hle : c ≤ c') (hgap : c' ≤ c + 2 ^ 31) :
    c' / 2 ^ 32 = c / 2 ^ 32 + if c.testBit 31 && !c'.testBit 31 then 1 else 0 := by
  simp only [Nat.testBit_eq_decide_div_mod_eq, Bool.and_eq_true, Bool.not_eq_true', decide_eq_true_eq,
    decide_eq_false_iff_not]
  split <;> omega

/-- Within the sampling bound tick_step keeps track of the counter (R94). -/
theorem Tracks.advance {e c c' : Nat} {ovf : Byte} (he : 0 < e ∧ e < 8) (h : Tracks e c ovf) (hle : c ≤ c')
    (hgap : c' ≤ c + 2 ^ 31) : Tracks e c' (ovfUpdate e (BitVec.ofNat 32 c') ovf) where
  zero := (ovfUpdate_zero e he _ ovf).trans h.zero
  seam := (ovfUpdate_seam e he _ ovf).trans (ofNat_getLsbD31 c')
  ext := by rw [ovfUpdate_ext e he, h.seam, h.ext, ofNat_getLsbD31, wraps_of_gap hle hgap, Nat.mod_add_mod]

/-- From any `OVF` with `ZERO` clear one tick_step tracks the counter that reads the sample and has wrapped as often as
`EXT` says. -/
theorem tracks_ovfUpdate {e raw : Nat} {ovf : Byte} (he : 0 < e ∧ e < 8) (hzero : zeroField e ovf = 0)
    (hraw : raw < 2 ^ 32) :
    Tracks e (extField e (ovfUpdate e (BitVec.ofNat 32 raw) ovf) * 2 ^ 32 + raw)
      (ovfUpdate e (BitVec.ofNat 32 raw) ovf) where
  zero := (ovfUpdate_zero e he _ ovf).trans hzero
  seam := by
    rw [ovfUpdate_seam e he, ofNat_getLsbD31, Nat.testBit_eq_decide_div_mod_eq, Nat.testBit_eq_decide_div_mod_eq]
    congr 2
    omega
  ext := by
    rw [Nat.mul_comm, Nat.mul_add_div (by norm_num), Nat.div_eq_of_lt hraw, Nat.add_zero,
      Nat.mod_eq_of_lt (extField_lt e he _)]

/-- From `OVF = 0x00` the first sample finds no wrap to count (R92, R94). -/
theorem tracks_ovfUpdate_zero {e raw : Nat} (he : 0 < e ∧ e < 8) (hraw : raw < 2 ^ 32) :
    Tracks e raw (ovfUpdate e (BitVec.ofNat 32 raw) 0) := by
  have hext : extField e (ovfUpdate e (BitVec.ofNat 32 raw) 0) = 0 := by
    rw [ovfUpdate_ext e he]
    simp [extField, seamField]
  have h := tracks_ovfUpdate (ovf := 0) he (by simp [zeroField]) hraw
  rwa [hext, Nat.zero_mul, Nat.zero_add] at h

theorem two_pow_mul_two_pow_sub {e : Nat} (he : 0 < e ∧ e < 8) : 2 ^ e * 2 ^ (32 - e) = 2 ^ 32 := by
  rw [← pow_add, Nat.add_sub_cancel' (by omega)]

/-- The tick value is the tracked counter in ticks, modulo 2^32 (R93, R94). -/
theorem Tracks.tickValue_eq {e c : Nat} {ovf : Byte} (he : 0 < e ∧ e < 8) (h : Tracks e c ovf) :
    tickValue e (BitVec.ofNat 32 c) ovf = BitVec.ofNat 32 (c / 2 ^ e) := by
  have hpow := two_pow_mul_two_pow_sub he
  have hlow : c % 2 ^ 32 / 2 ^ e = c / 2 ^ e % 2 ^ (32 - e) := by rw [← hpow, Nat.mod_mul_right_div_self]
  have hhigh : c / 2 ^ e / 2 ^ (32 - e) = c / 2 ^ 32 := by rw [Nat.div_div_eq_div_mul, hpow]
  apply BitVec.eq_of_toNat_eq
  rw [tickValue_toNat e he _ _ (h.seam.trans (ofNat_getLsbD31 c).symm) h.zero, h.ext, BitVec.toNat_ofNat,
    BitVec.toNat_ofNat, hlow, ← hhigh]
  calc c / 2 ^ e % 2 ^ (32 - e) + c / 2 ^ e / 2 ^ (32 - e) % 2 ^ e * 2 ^ (32 - e)
      = c / 2 ^ e % (2 ^ (32 - e) * 2 ^ e) := by rw [Nat.mod_mul, Nat.mul_comm (_ % _)]
    _ = c / 2 ^ e % 2 ^ 32 := by rw [Nat.mul_comm, hpow]

/-! ### Sequences of time commands under the sampling bound -/

/-- The raw counter of offset `t0` at true time `t` as one that does not wrap, but for `w` wraps that are not counted. -/
def countedAt (t0 w t : Nat) : Nat := t0 + t - w * 2 ^ 32

theorem rawAt_eq_countedAt {t0 w t : Nat} (hw : w * 2 ^ 32 ≤ t0 + t) :
    rawAt t0 t = BitVec.ofNat 32 (countedAt t0 w t) := by
  apply BitVec.eq_of_toNat_eq
  simp only [rawAt, countedAt, BitVec.toNat_ofNat]
  omega

/-- A wrap is `2^(32-E)` ticks. -/
theorem countedAt_div {e : Nat} (he : 0 < e ∧ e < 8) (t0 w t : Nat) :
    countedAt t0 w t / 2 ^ e = (t0 + t) / 2 ^ e - w * 2 ^ (32 - e) := by
  rw [countedAt, ← two_pow_mul_two_pow_sub he, Nat.mul_left_comm, Nat.sub_mul_div]

/-- The counted wraps leave true time's steps as they are. -/
theorem countedAt_gap {t0 w t t' : Nat} (hw : w * 2 ^ 32 ≤ t0 + t) (hle : t ≤ t') (hgap : t' ≤ t + 2 ^ 31) :
    countedAt t0 w t ≤ countedAt t0 w t' ∧ countedAt t0 w t' ≤ countedAt t0 w t + 2 ^ 31 := by
  unfold countedAt
  omega

/-- The response R94 gives for a command issued at its true time, with `w` wraps not counted. -/
def exactResponse (e t0 w : Nat) (p : Instr × Nat) : Response :=
  ⟨false, answerData p.1 (BitVec.ofNat 32 ((t0 + p.2) / 2 ^ e - w * 2 ^ (32 - e)))⟩

/-- A time command whose sample is tracked answers exactly. -/
theorem exec_time_of_tracks {t0 w : Nat} {p : Instr × Nat} {s : State} {rest : List Word} (hp : p.1.isTime = true)
    (hraw : s.rawIn = rawAt t0 p.2 :: rest) (hw : w * 2 ^ 32 ≤ t0 + p.2)
    (hfirst : Tracks s.cfg.e (countedAt t0 w p.2) (ovfUpdate s.cfg.e (rawAt t0 p.2) s.ovf)) :
    ∃ t, exec p.1 s = .next t ∧ t.cfg = s.cfg ∧ t.rawIn = rest ∧ Tracks s.cfg.e (countedAt t0 w p.2) t.ovf ∧
      t.responses = s.responses ++ [exactResponse s.cfg.e t0 w p] := by
  obtain ⟨t, ht, hcfg, htraw, htovf, htrsp⟩ := exec_time_of_rawIn hp hraw
  rw [← htovf] at hfirst
  rw [rawAt_eq_countedAt hw, hfirst.tickValue_eq s.cfg.e_range, countedAt_div s.cfg.e_range] at htrsp
  exact ⟨t, ht, hcfg, htraw, hfirst, htrsp⟩

/-- Once the first sample is tracked, time commands whose samples stay within the sampling bound all answer exactly. -/
theorem runAll_of_first_tracks {t0 w : Nat} {p : Instr × Nat} {prog : List (Instr × Nat)} {s : State}
    {rest : List Word} (htime : ∀ q ∈ p :: prog, q.1.isTime = true)
    (hraw : s.rawIn = (p :: prog).map (fun q => rawAt t0 q.2) ++ rest) (hw : w * 2 ^ 32 ≤ t0 + p.2)
    (hfirst : Tracks s.cfg.e (countedAt t0 w p.2) (ovfUpdate s.cfg.e (rawAt t0 p.2) s.ovf))
    (hbound : SampledInTime p.2 (prog.map Prod.snd)) :
    ∃ t, runAll ((p :: prog).map Prod.fst) s = .next t ∧
      t.responses = s.responses ++ (p :: prog).map (exactResponse s.cfg.e t0 w) := by
  induction prog generalizing p s with
  | nil =>
    obtain ⟨t, ht, -, -, -, htrsp⟩ := exec_time_of_tracks (htime p List.mem_cons_self) hraw hw hfirst
    exact ⟨t, by simp [runAll, ht], htrsp⟩
  | cons q prog ih =>
    obtain ⟨t, ht, hcfg, htraw, htracks, htrsp⟩ := exec_time_of_tracks (htime p List.mem_cons_self) hraw hw hfirst
    obtain ⟨hle, hgap, hbound⟩ := hbound
    obtain ⟨hcle, hcgap⟩ := countedAt_gap hw hle hgap
    have hw' : w * 2 ^ 32 ≤ t0 + q.2 := hw.trans (Nat.add_le_add_left hle t0)
    have hnext : Tracks t.cfg.e (countedAt t0 w q.2) (ovfUpdate t.cfg.e (rawAt t0 q.2) t.ovf) := by
      rw [hcfg, rawAt_eq_countedAt hw']
      exact htracks.advance s.cfg.e_range hcle hcgap
    obtain ⟨u, hu, hursp⟩ := ih (fun r hr => htime r (List.mem_cons_of_mem p hr)) htraw hw' hnext hbound
    refine ⟨u, ?_, ?_⟩
    · rw [List.map_cons, runAll, ht]
      exact hu
    · rw [hursp, htrsp, hcfg, List.append_assoc]
      rfl

/-- The wraps that are missed are those before the first sample, which finds the counter before any other (R94). -/
theorem countedAt_first {t0 t : Nat} {times : List Nat} (ht0 : t0 < 2 ^ 32) (ht : t ≤ 2 ^ 31) :
    missedWraps t0 (t :: times) * 2 ^ 32 ≤ t0 + t ∧ countedAt t0 (missedWraps t0 (t :: times)) t < 2 ^ 32 := by
  by_cases hwrapped : 2 ^ 31 ≤ t0 ∧ 2 ^ 32 ≤ t0 + t
  · have hone : missedWraps t0 (t :: times) = 1 := if_pos hwrapped
    rw [hone, countedAt]
    omega
  · have hnone : missedWraps t0 (t :: times) = 0 := if_neg hwrapped
    rw [hnone, countedAt]
    omega

/-- R94's exactness, from `OVF = 0x00`. -/
theorem runAll_exact_of_ovf_zero {s : State} {t0 : Nat} {prog : List (Instr × Nat)} {rest : List Word}
    (hovf : s.ovf = 0) (ht0 : t0 < 2 ^ 32) (hbound : SampledInTime 0 (prog.map Prod.snd))
    (htime : ∀ p ∈ prog, p.1.isTime = true) (hraw : s.rawIn = prog.map (fun p => rawAt t0 p.2) ++ rest) :
    ∃ t, runAll (prog.map Prod.fst) s = .next t ∧
      t.responses = s.responses ++ prog.map (exactResponse s.cfg.e t0 (missedWraps t0 (prog.map Prod.snd))) := by
  cases prog with
  | nil => exact ⟨s, rfl, by simp⟩
  | cons p prog =>
    obtain ⟨-, hgap, hrest⟩ := hbound
    obtain ⟨hw, hlt⟩ := countedAt_first (times := prog.map Prod.snd) ht0 (by omega : p.2 ≤ 2 ^ 31)
    refine runAll_of_first_tracks htime hraw hw ?_ hrest
    rw [hovf, rawAt_eq_countedAt hw]
    exact tracks_ovfUpdate_zero s.cfg.e_range hlt

/-- A later sample within the sampling bound is at most `2^(31-E)` ticks later. -/
theorem ticks_of_gap_le {e raw gap : Nat} (he : 0 < e ∧ e < 8) (hgap : gap ≤ 2 ^ 31) :
    (raw + gap) / 2 ^ e ≤ raw / 2 ^ e + 2 ^ (31 - e) := by
  have hpow : 2 ^ (31 - e) * 2 ^ e = 2 ^ 31 := by rw [← pow_add, Nat.sub_add_cancel (by omega)]
  calc (raw + gap) / 2 ^ e
      ≤ (raw + 2 ^ (31 - e) * 2 ^ e) / 2 ^ e := Nat.div_le_div_right (by omega)
    _ = raw / 2 ^ e + 2 ^ (31 - e) := Nat.add_mul_div_right _ _ (Nat.two_pow_pos e)

/-- From any `OVF` with `ZERO` clear the first sample is tracked by some counter that reads as the raw one does, and the
wraps it has made do not change the ticks between two samples. -/
theorem exists_tracked_offset {e raw : Nat} {ovf : Byte} (he : 0 < e ∧ e < 8) (hzero : zeroField e ovf = 0)
    (hraw : raw < 2 ^ 32) :
    ∃ t0, Tracks e t0 (ovfUpdate e (BitVec.ofNat 32 raw) ovf) ∧ (∀ t, rawAt t0 t = BitVec.ofNat 32 (raw + t)) ∧
      ∀ t, (t0 + t) / 2 ^ e = t0 / 2 ^ e + ((raw + t) / 2 ^ e - raw / 2 ^ e) := by
  refine ⟨_, tracks_ovfUpdate he hzero hraw, fun t => ?sample, fun t => ?ticks⟩
  case sample =>
    apply BitVec.eq_of_toNat_eq
    simp only [rawAt, BitVec.toNat_ofNat]
    omega
  case ticks =>
    have hle : raw / 2 ^ e ≤ (raw + t) / 2 ^ e := Nat.div_le_div_right (Nat.le_add_right raw t)
    have hdiv : ∀ wraps n, (wraps * 2 ^ 32 + n) / 2 ^ e = wraps * 2 ^ (32 - e) + n / 2 ^ e := fun wraps n => by
      rw [← two_pow_mul_two_pow_sub he, Nat.mul_left_comm, Nat.mul_add_div (Nat.two_pow_pos e)]
    rw [Nat.add_assoc, hdiv, hdiv, Nat.add_assoc, Nat.add_sub_cancel' hle]

/-- R94's differences, from any state with `ZERO` clear: the first sample may be any, the second is tracked. -/
theorem runAll_ticks_difference {s : State} {raw gap : Nat} {rest : List Word} (hzero : ZeroClear s)
    (hlt : raw < 2 ^ 32) (hgap : gap ≤ 2 ^ 31)
    (hraw : s.rawIn = BitVec.ofNat 32 raw :: BitVec.ofNat 32 (raw + gap) :: rest) :
    ∃ (t : State) (t1 : Word), runAll [.ticks, .ticks] s = .next t ∧
      t.responses = s.responses ++
        [⟨false, t1⟩, ⟨false, t1 + BitVec.ofNat 32 ((raw + gap) / 2 ^ s.cfg.e - raw / 2 ^ s.cfg.e)⟩] := by
  obtain ⟨t0, htracks, hsample, hticks⟩ := exists_tracked_offset s.cfg.e_range hzero hlt
  have hbound : SampledInTime 0 [gap] := ⟨Nat.zero_le gap, by rwa [Nat.zero_add], trivial⟩
  obtain ⟨t, ht, htrsp⟩ := runAll_of_first_tracks (t0 := t0) (w := 0) (p := (.ticks, 0)) (prog := [(.ticks, gap)])
    (s := s) (rest := rest) (by simp [Instr.isTime]) (by simpa [hsample] using hraw) (by simp)
    (by simpa [hsample, countedAt] using htracks) hbound
  refine ⟨t, BitVec.ofNat 32 (t0 / 2 ^ s.cfg.e), ht, htrsp.trans ?_⟩
  simp [exactResponse, answerData, hticks, BitVec.ofNat_add]

/-- Settles O17: under the sampling bound `OVF` tracks a counter that does not wrap, by induction on the commands. -/
theorem ticksExactUnderSamplingBound : Obligations.TicksExactUnderSamplingBound := by
  constructor
  · intro s t0 prog rest hovf ht0 hbound htime hraw
    exact runAll_exact_of_ovf_zero hovf ht0 hbound htime hraw
  · intro s raw gap rest hzero hlt hgap hraw
    obtain ⟨t, t1, ht, htrsp⟩ := runAll_ticks_difference hzero hlt hgap hraw
    exact ⟨t, t1, _, _, ht, htrsp, rfl, rfl, Nat.sub_le_iff_le_add'.mpr (ticks_of_gap_le s.cfg.e_range hgap)⟩

end Sys2Proof.Machine
end

section
/-! PROOFS. The draws of an annotated line (spec/20_memory.md R60, R61, spec/30_encoding.md R77). -/

namespace Sys2Proof.Machine

/-- A line whose command has a next state under its draws goes there, with the environment given back (R77). -/
theorem acceptLine_of_exec {w : CmdWord} {i : Instr} {d : Draws} {s u : State} (hd : decode w = .command i)
    (hu : exec i (s.setEnv d.raws (d.levels s.cfg.numDio)) = .next u) :
    acceptLine w d s = .next (u.setEnv s.rawIn s.pinIn) := by
  rw [acceptLine, accept_of_decode hd, hu]

@[simp] theorem rawSample_setEnv_raws (d : Draws) (pins : List (List Bool)) (s : State) :
    rawSample (s.setEnv d.raws pins) = d.raw.getD (Config.freeRaw s.rawDraws) := by
  cases h : d.raw <;> simp [rawSample, Draws.raws, h]

theorem pinSample_setEnv_levels (d : Draws) (raws : List Word) (s : State) {n k : Nat} (hk : k < n) :
    pinSample (s.setEnv raws (d.levels n)) k = (d.pins.lookup k).getD (Config.freePin k s.pollCount) := by
  cases h : d.pins.lookup k <;> simp [pinSample, Draws.levels, hk, h]

/-- The levels a top-level IRQEN leaves (R131, R154). -/
theorem exec_irqen_top_dio {s : State} (h : s.nest = 1) (hs : DioSized s) :
    ∃ t, exec .irqen s = .next t ∧ t.dio.length = s.cfg.numDio ∧ ∀ k < s.cfg.numDio, dioAt t k = polledLevel s k :=
  ⟨_, exec_irqen_top s h hs, by simp [polledDio], fun _ hk => polledDio_getD hk⟩

/-- Settles O43: the command runs in the state whose environment is the line's draws, where a draw the line does not
name is past the end of its queue. -/
theorem lineFixesDrawsOfItsStep : Obligations.LineFixesDrawsOfItsStep := by
  intro s i d rest hf hi
  have hstep := step_line hf hi
  refine ⟨?time, ?pins, ?env⟩
  case time =>
    intro ht
    exact ⟨_, hstep.trans (acceptLine_of_exec (decode_encode i) (exec_time_eq ht _)), by simp⟩
  case pins =>
    rintro rfl hn hs
    obtain ⟨t, ht, hlen, hlevels⟩ := exec_irqen_top_dio
      (s := (s.setInputs rest).setEnv d.raws (d.levels s.cfg.numDio)) hn hs
    refine ⟨_, hstep.trans (acceptLine_of_exec (decode_encode .irqen) ht), hlen, fun k hk => ?_⟩
    refine (hlevels k hk).trans ?_
    rw [polledLevel, pinSample_setEnv_levels d d.raws _ hk]
    rfl
  case env =>
    intro t ht
    obtain ⟨u, hu, rfl⟩ := acceptLine_cases (hstep.symm.trans ht)
    rw [accept_of_decode (decode_encode i)] at hu
    obtain ⟨-, -, hinputs⟩ := exec_frame hu
    exact ⟨rfl, rfl, hinputs⟩

end Sys2Proof.Machine
end

section
/-! PROOFS. The fields a decoded word has, and the freedom R75 leaves (spec/30_encoding.md R70 to R75). -/

namespace Sys2Proof

theorem Instr.opcode_lt (i : Instr) : i.opcode.toNat < 5 := by
  cases i <;> simp [opcode]

/-- What a word's fields say of its decoding: it is a command, whose opcode the word holds and whose operand it holds
too unless the command ignores `ARG`, or it is illegal (R73, R74, R75). -/
theorem decode_cases (w : CmdWord) :
    (∃ i, decode w = .command i ∧ opField w = i.opcode ∧
      (argField w = i.arg ∨ i = .ticks ∨ i = .irqdis ∨ i = .irqen)) ∨
    (decode w = .illegal (opField w) ∧ 5 ≤ (opField w).toNat) := by
  have hw : decode w = decode (cmdWord (opField w) (argField w)) := by rw [cmdWord_fields]
  rw [hw, decode_cmdWord]
  generalize opField w = op
  split_ifs with h0 h1 h2 h3 h4
  · exact .inl ⟨.ticks, rfl, h0, .inr (.inl rfl)⟩
  · exact .inl ⟨.delta _, rfl, h1, .inl rfl⟩
  · exact .inl ⟨.chkdl _, rfl, h2, .inl rfl⟩
  · exact .inl ⟨.irqdis, rfl, h3, .inr (.inr (.inl rfl))⟩
  · exact .inl ⟨.irqen, rfl, h4, .inr (.inr (.inr rfl))⟩
  · exact .inr ⟨rfl, by revert op; decide⟩

theorem fields_of_decode {w : CmdWord} {i : Instr} (h : decode w = .command i) :
    opField w = i.opcode ∧ (argField w = i.arg ∨ i = .ticks ∨ i = .irqdis ∨ i = .irqen) := by
  obtain ⟨j, hj, hfields⟩ | ⟨hillegal, -⟩ := decode_cases w
  · obtain rfl : j = i := Decoded.command.inj (hj.symm.trans h)
    exact hfields
  · exact nomatch hillegal.symm.trans h

theorem exists_decode_command_iff (w : CmdWord) : (∃ i, decode w = .command i) ↔ (opField w).toNat < 5 := by
  constructor
  · rintro ⟨i, hi⟩
    obtain ⟨hop, -⟩ := fields_of_decode hi
    exact hop ▸ i.opcode_lt
  · intro hop
    obtain ⟨i, hi, -⟩ | ⟨-, hge⟩ := decode_cases w
    · exact ⟨i, hi⟩
    · omega

theorem decode_eq_illegal_iff (w : CmdWord) : decode w = .illegal (opField w) ↔ 5 ≤ (opField w).toNat := by
  obtain ⟨i, hi, hop, -⟩ | ⟨hillegal, hge⟩ := decode_cases w
  · have hlt := i.opcode_lt
    simp [hi, hop, hlt]
  · exact iff_of_true hillegal hge

/-- Settles O2: a word whose fields are those of the encoding is the encoding, and `ARG` alone may differ. -/
theorem decodeAndEncodeAgree : Obligations.DecodeAndEncodeAgree := by
  refine ⟨Machine.decode_encode, fun w i h => ?_⟩
  obtain ⟨hop, harg | hignored⟩ := fields_of_decode h
  · left
    rw [encode, ← hop, ← harg, cmdWord_fields]
  · right
    rw [hop]
    rcases hignored with rfl | rfl | rfl <;> exact ⟨by simp, rfl⟩

/-- Settles O4: words that decode alike have the same opcode, and the same operand if the command has one. -/
theorem ignoredArgIsTheOnlyFreedom : Obligations.IgnoredArgIsTheOnlyFreedom := by
  refine ⟨fun arg s => ?_, ⟨rfl, rfl, rfl⟩, fun w w' i h h' => ?_, fun op arg hop => ?_⟩
  · exact ⟨Machine.accept_of_decode (decode_cmdWord 0 arg) s, Machine.accept_of_decode (decode_cmdWord 3 arg) s,
      Machine.accept_of_decode (decode_cmdWord 4 arg) s⟩
  · obtain ⟨hop, harg⟩ := fields_of_decode h
    obtain ⟨hop', harg'⟩ := fields_of_decode h'
    by_cases hignored : i = .ticks ∨ i = .irqdis ∨ i = .irqen
    · exact .inr ⟨hop.trans hop'.symm, hignored⟩
    · left
      rw [← cmdWord_fields w, ← cmdWord_fields w', hop, hop', harg.resolve_right hignored,
        harg'.resolve_right hignored]
  · exact (exists_decode_command_iff _).mpr (by rwa [opField_cmdWord])

/-! ### The opcode map -/

/-- The row of the opcode map that a command belongs to (R73). -/
def Instr.opcodeRow (i : Instr) : OpcodeRow := ⟨i.mnemonic, cmdWord 7 0, cmdWord i.opcode 0⟩

theorem exists_opcodeRow_of_mem {r : OpcodeRow} (h : r ∈ opcodeMap) : ∃ i : Instr, r = i.opcodeRow := by
  have hrows : opcodeMap = [Instr.ticks, .delta 0, .chkdl 0, .irqdis, .irqen].map Instr.opcodeRow := by decide
  rw [hrows] at h
  obtain ⟨i, -, rfl⟩ := List.mem_map.mp h
  exact ⟨i, rfl⟩

theorem Instr.mnemonic_eq_iff (i j : Instr) : i.mnemonic = j.mnemonic ↔ i.opcode = j.opcode := by
  cases i <;> cases j <;> simp [mnemonic, opcode]

/-- The mask of every row leaves `OP` and clears `ARG` (R73). -/
theorem and_opMask (w : CmdWord) : w &&& cmdWord 7 0 = cmdWord (opField w) 0 := by
  calc w &&& cmdWord 7 0
      = cmdWord (opField w) (argField w) &&& cmdWord 7 0 := by rw [cmdWord_fields]
    _ = cmdWord (opField w &&& BitVec.allOnes 3) (argField w &&& 0) := BitVec.and_append
    _ = cmdWord (opField w) 0 := congrArg₂ cmdWord BitVec.and_allOnes BitVec.and_zero

theorem selects_opcodeRow_iff (i : Instr) (w : CmdWord) :
    i.opcodeRow.selects w = true ↔ opField w = i.opcode := by
  rw [OpcodeRow.selects, Instr.opcodeRow, and_opMask, beq_iff_eq]
  exact ⟨fun h => by simpa using congrArg opField h, fun h => by rw [h]⟩

/-- Settles O3: a row compares `OP` with the opcode of its mnemonic, and `OP` alone decides what a word decodes to. -/
theorem opcodeMapMatchesDecoder : Obligations.OpcodeMapMatchesDecoder := by
  refine ⟨fun w r hr => ?_, exists_decode_command_iff, decode_eq_illegal_iff⟩
  obtain ⟨i, rfl⟩ := exists_opcodeRow_of_mem hr
  rw [selects_opcodeRow_iff]
  constructor
  · intro hop
    obtain ⟨j, hj⟩ := (exists_decode_command_iff w).mpr (hop ▸ i.opcode_lt)
    obtain ⟨hopj, -⟩ := fields_of_decode hj
    exact ⟨j, hj, (j.mnemonic_eq_iff i).mpr (hopj.symm.trans hop)⟩
  · rintro ⟨j, hj, hname⟩
    obtain ⟨hopj, -⟩ := fields_of_decode hj
    exact hopj.trans ((j.mnemonic_eq_iff i).mp hname)

/-! ### Written words and the response word -/

/-- Settles O1: each written word is evaluated. -/
theorem writtenWordsDecode : Obligations.WrittenWordsDecode := by
  unfold Obligations.WrittenWordsDecode
  decide

theorem rspWord_err (r : Machine.Response) : (Machine.rspWord r).getLsbD 32 = r.err := by
  rw [getLsbD_rspWord]
  cases r.err <;> rfl

theorem rspWord_data (r : Machine.Response) : (Machine.rspWord r).extractLsb' 0 32 = r.data := by
  apply BitVec.eq_of_getLsbD_eq
  intro k hk
  simp [getLsbD_rspWord, hk]

/-- Settles O5: the word's fields read back `ERR` and `DATA`, so the word determines the response. -/
theorem responseWordLayout : Obligations.ResponseWordLayout := by
  refine fun r r' => ⟨rspWord_err r, rspWord_data r, fun h => ?_⟩
  have herr : r.err = r'.err := by rw [← rspWord_err r, ← rspWord_err r', h]
  have hdata : r.data = r'.data := by rw [← rspWord_data r, ← rspWord_data r', h]
  exact congrArg₂ Machine.Response.mk herr hdata

end Sys2Proof
end

section
/-! PROOFS. What an accepted word answers (spec/30_encoding.md R71, R74, spec/60_exceptions.md R173). -/

namespace Sys2Proof.Machine

theorem accept_of_illegal {w : CmdWord} (hw : 5 ≤ (opField w).toNat) (s : State) :
    accept w s = .next (s.respond true 0) := by
  rw [accept, (decode_eq_illegal_iff w).mpr hw]
  rfl

/-- Settles O9: the refusal draws nothing, so a line's draws are set and given back around it. -/
theorem illegalOpcodeIsRefusedInBand : Obligations.IllegalOpcodeIsRefusedInBand := by
  intro s w rest hf hi hw
  obtain hcommand | ⟨d, hline⟩ := hi
  · rw [step_command hf hcommand, accept_of_illegal hw]
    rfl
  · rw [step_line hf hline, acceptLine, accept_of_illegal hw]
    rfl

/-- A command that completes answers `ERR = 0` and its row's `DATA`, once (R71). -/
theorem exec_responses {i : Instr} {s t : State} (h : exec i s = .next t) :
    t.responses = s.responses ++ [⟨false, answerData i (tickStep s).1⟩] := by
  rcases exec_cases h with ⟨_, rfl⟩ | ⟨rfl, _, rfl⟩ | ⟨rfl, _, rfl⟩ | ⟨rfl, _, _, _, _, _, _, rfl⟩ <;> rfl

/-- What R71 asks of the answer `r` to the word `w` accepted at the tick value `tick`. -/
def Answers (w : CmdWord) (tick : Word) (r : Response) : Prop :=
  (r.err = true ↔ 5 ≤ (opField w).toNat) ∧ (r.err = true → r.data = 0) ∧
    ∀ i, decode w = .command i → r.data = answerData i tick

theorem accept_responses {w : CmdWord} {s t : State} (h : accept w s = .next t) :
    ∃ r, t.responses = s.responses ++ [r] ∧ Answers w (tickStep s).1 r := by
  by_cases hw : 5 ≤ (opField w).toNat
  · rw [accept_of_illegal hw, Host.Outcome.next.injEq] at h
    subst h
    have hd := (decode_eq_illegal_iff w).mpr hw
    exact ⟨⟨true, 0⟩, rfl, by simp [hw], fun _ => rfl, fun i hi => nomatch hd.symm.trans hi⟩
  · obtain ⟨i, hi⟩ := (exists_decode_command_iff w).mpr (Nat.not_le.mp hw)
    rw [accept_of_decode hi] at h
    refine ⟨_, exec_responses h, by simp [hw], by simp, fun j hj => ?_⟩
    rw [Decoded.command.inj (hj.symm.trans hi)]

/-- The port accepts a word that comes next, alone or as a line, while `FAILED = 0` (R8, R28). -/
theorem acceptedWord_eq_some {s : State} {w : CmdWord} (h : acceptedWord s = some w) :
    s.failed = false ∧ ∃ rest, s.inputs = .command w :: rest ∨ ∃ d, s.inputs = .line w d :: rest := by
  unfold acceptedWord at h
  split at h
  · cases h
  · rename_i hf
    refine ⟨by simpa using hf, ?_⟩
    split at h
    · rename_i rest hi
      exact ⟨rest, .inl (by rw [hi, Option.some.inj h])⟩
    · rename_i d rest hi
      exact ⟨rest, .inr ⟨d, by rw [hi, Option.some.inj h]⟩⟩
    · cases h
    · cases h

/-- Settles O10: the word is accepted in the state whose samples are those the step draws from. -/
theorem oneResponsePerAcceptedCommand : Obligations.OneResponsePerAcceptedCommand := by
  intro s t w hw h
  obtain ⟨hf, rest, hcommand | ⟨d, hline⟩⟩ := acceptedWord_eq_some hw
  · have hraws : stepRaws s = s.rawIn := by rw [stepRaws, hcommand]
    rw [step_command hf hcommand] at h
    rw [hraws]
    exact (accept_responses h :)
  · have hraws : stepRaws s = d.raws := by
      rw [stepRaws, hline]
      rfl
    rw [step_line hf hline] at h
    obtain ⟨u, hu, rfl⟩ := acceptLine_cases h
    rw [hraws]
    exact (accept_responses hu :)

end Sys2Proof.Machine
end

section
/-! PROOFS. Sequences that keep the pairing obligation, and code that uses GUARDED only (spec/42_irqguard.md R136, spec/70_reset_and_hazards.md R205, R206). -/

namespace Sys2Proof.Machine

/-- A command that the pairing and the depth obligations allow completes, at the next depth (R130, R131). -/
theorem exec_of_pairedFrom {i : Instr} {is : List Instr} {s : State}
    (h : pairedFrom s.cfg.nestW s.nest (i :: is) = true) :
    ∃ t, exec i s = .next t ∧ pairedFrom t.cfg.nestW t.nest is = true ∧
      depthAfter s.nest (i :: is) = depthAfter t.nest is := by
  cases i with
  | ticks => exact ⟨_, exec_time_eq rfl s, h, rfl⟩
  | delta target => exact ⟨_, exec_time_eq rfl s, h, rfl⟩
  | chkdl target => exact ⟨_, exec_time_eq rfl s, h, rfl⟩
  | irqdis =>
    obtain ⟨hroom, hrest⟩ : s.nest + 1 < 2 ^ s.cfg.nestW ∧ pairedFrom s.cfg.nestW (s.nest + 1) is = true := by
      simpa [pairedFrom] using h
    exact ⟨_, exec_irqdis_eq s hroom, hrest, rfl⟩
  | irqen =>
    obtain h0 | h1 | h2 : s.nest = 0 ∨ s.nest = 1 ∨ 2 ≤ s.nest := by omega
    · rw [h0] at h
      cases h
    · obtain ⟨dio, pins, slots, -, -, ht⟩ := exec_irqen_top_frame s h1
      rw [h1] at h ⊢
      exact ⟨_, ht, h, rfl⟩
    · obtain ⟨n, hn⟩ : ∃ n, s.nest = n + 1 := ⟨s.nest - 1, by omega⟩
      have ht := exec_irqen_nested s h2
      rw [hn] at h ht ⊢
      exact ⟨_, ht, h, rfl⟩

/-- A sequence that keeps both obligations runs to its end, at the depth its pairing gives (R205, R206). -/
theorem runAll_of_pairedFrom {is : List Instr} {s : State} (h : pairedFrom s.cfg.nestW s.nest is = true) :
    ∃ t, runAll is s = .next t ∧ t.nest = depthAfter s.nest is := by
  induction is generalizing s with
  | nil => exact ⟨s, rfl, rfl⟩
  | cons i is ih =>
    obtain ⟨t, ht, hpaired, hdepth⟩ := exec_of_pairedFrom h
    obtain ⟨u, hu, hnest⟩ := ih hpaired
    refine ⟨u, ?_, hnest.trans hdepth.symm⟩
    rw [runAll, ht]
    exact hu

theorem pairedFrom_irqdis_cons {w d : Nat} (h : d + 1 < 2 ^ w) (is : List Instr) :
    pairedFrom w d (.irqdis :: is) = pairedFrom w (d + 1) is := by
  simp [pairedFrom, h]

/-- A time command leaves the depth as it is. -/
theorem paired_time_cons {i : Instr} (hi : i.isTime = true) (w d : Nat) (is : List Instr) :
    pairedFrom w d (i :: is) = pairedFrom w d is ∧ depthAfter d (i :: is) = depthAfter d is := by
  cases i with
  | ticks => exact ⟨rfl, rfl⟩
  | delta target => exact ⟨rfl, rfl⟩
  | chkdl target => exact ⟨rfl, rfl⟩
  | irqdis => cases hi
  | irqen => cases hi

/-- GUARDED code leaves the depth to what follows it as it found it (R136). -/
theorem pairedFrom_expand_append {code : HostCode} (hcode : code.onlyGuarded = true) {w d : Nat}
    (hroom : d + code.depth < 2 ^ w) (is : List Instr) :
    pairedFrom w d (code.expand ++ is) = pairedFrom w d is ∧ depthAfter d (code.expand ++ is) = depthAfter d is := by
  induction code generalizing d is with
  | done => exact ⟨rfl, rfl⟩
  | cmd i rest ih =>
    obtain ⟨htime, hrest⟩ := Bool.and_eq_true_iff.mp hcode
    obtain ⟨hpaired, hdepth⟩ := ih hrest hroom is
    obtain ⟨htimePaired, htimeDepth⟩ := paired_time_cons htime w d (rest.expand ++ is)
    exact ⟨htimePaired.trans hpaired, htimeDepth.trans hdepth⟩
  | guarded body rest ihbody ihrest =>
    obtain ⟨hbody, hrest⟩ := Bool.and_eq_true_iff.mp hcode
    obtain ⟨hbodyRoom, hrestRoom⟩ : d + 1 + body.depth < 2 ^ w ∧ d + rest.depth < 2 ^ w := by
      simp only [HostCode.depth] at hroom
      omega
    have hexpand : (HostCode.guarded body rest).expand ++ is =
        .irqdis :: (body.expand ++ .irqen :: (rest.expand ++ is)) := by
      simp [HostCode.expand]
    obtain ⟨hbodyPaired, hbodyDepth⟩ := ihbody hbody hbodyRoom (.irqen :: (rest.expand ++ is))
    obtain ⟨hrestPaired, hrestDepth⟩ := ihrest hrest hrestRoom is
    rw [hexpand]
    constructor
    · rw [pairedFrom_irqdis_cons (by omega), hbodyPaired]
      exact hrestPaired
    · exact hbodyDepth.trans hrestDepth

/-- Settles O29: code that uses GUARDED only is paired at its own depth, and paired code runs to its end. -/
theorem guardedCodeKeepsPairing : Obligations.GuardedCodeKeepsPairing := by
  intro s code hcode hroom
  obtain ⟨hpaired, hdepth⟩ := pairedFrom_expand_append hcode hroom []
  rw [List.append_nil] at hpaired hdepth
  obtain ⟨t, ht, hnest⟩ := runAll_of_pairedFrom hpaired
  exact ⟨hpaired, t, ht, hnest.trans hdepth⟩

end Sys2Proof.Machine
end

section
/-! PROOFS. The assembler reads back the text of every command (spec/30_encoding.md R77, R79). -/

namespace Sys2Proof.Machine

/-! ### Numbers -/

theorem hexValue_hexDigit {n : Nat} (hn : n < 16) : hexValue (hexDigit n) = some n := by
  revert n
  decide

theorem digitsValue_hexDigit_cons (acc : Nat) {n : Nat} (hn : n < 16) (cs : List Char) :
    digitsValue hexValue 16 acc (hexDigit n :: cs) = digitsValue hexValue 16 (acc * 16 + n) cs := by
  rw [digitsValue, hexValue_hexDigit hn]

/-- The first `k` digits of `n`, most significant first, stand for the last `k` of `n` (R79). -/
theorem digitsValue_hexDigits (n acc k : Nat) :
    digitsValue hexValue 16 acc ((List.range k).reverse.map fun j => hexDigit (n / 16 ^ j % 16)) =
      some (acc * 16 ^ k + n % 16 ^ k) := by
  induction k generalizing acc with
  | zero => simp [digitsValue, Nat.mod_one]
  | succ k ih =>
    have hdigit : n / 16 ^ k % 16 < 16 := Nat.mod_lt _ (by decide)
    rw [List.range_succ, List.reverse_append, List.reverse_singleton, List.singleton_append, List.map_cons,
      digitsValue_hexDigit_cons acc hdigit, ih, Nat.pow_succ, Nat.mod_mul]
    congr 1
    ring

theorem digitsValue_hexWord (v : Word) : digitsValue hexValue 16 0 (hexWord v) = some v.toNat := by
  have hdigits := digitsValue_hexDigits v.toNat 0 8
  have hlt : v.toNat % 16 ^ 8 = v.toNat := Nat.mod_eq_of_lt v.isLt
  rwa [Nat.zero_mul, Nat.zero_add, hlt] at hdigits

@[simp] theorem parseWord_hexNumber (v : Word) : parseWord (hexNumber v) = some v := by
  have hvalue : parseWord (hexNumber v) =
      match digitsValue hexValue 16 0 (hexWord v) with
      | some n => if n < 2 ^ 32 then some (BitVec.ofNat 32 n) else none
      | none => none := rfl
  rw [hvalue, digitsValue_hexWord]
  simp [v.isLt]

/-! ### Words of a line -/

/-- A character that ends no word of a line: no blank, and not the `;` of a comment (R77). -/
def isWordChar (c : Char) : Bool := !(c == ' ' || c == '\t') && c != ';'

/-- A word of a line: some characters, none of which ends it. -/
def IsLineWord (t : List Char) : Prop := t ≠ [] ∧ t.all isWordChar = true

theorem splitBlanks_ne_nil (cs : List Char) : splitBlanks cs ≠ [] := by
  unfold splitBlanks
  split
  · simp
  · split
    · simp
    · split <;> simp

theorem splitBlanks_blank (cs : List Char) : splitBlanks (' ' :: cs) = [] :: splitBlanks cs := by
  obtain ⟨first, others, h⟩ := List.exists_cons_of_ne_nil (splitBlanks_ne_nil cs)
  rw [splitBlanks, h]
  simp

/-- Characters that are no blank go on with the first word of what follows them. -/
theorem splitBlanks_append {t : List Char} (ht : t.all isWordChar = true) {rest first : List Char}
    {others : List (List Char)} (hrest : splitBlanks rest = first :: others) :
    splitBlanks (t ++ rest) = (t ++ first) :: others := by
  induction t with
  | nil => exact hrest
  | cons c t ih =>
    obtain ⟨hc, ht⟩ : isWordChar c = true ∧ t.all isWordChar = true := by simpa using ht
    have hblank : ¬(c = ' ' ∨ c = '\t') := by
      intro h
      rcases h with rfl | rfl <;> exact absurd hc (by decide)
    rw [List.cons_append, splitBlanks, ih ht]
    exact if_neg hblank

theorem takeWhile_word_append {t : List Char} (ht : t.all isWordChar = true) (rest : List Char) :
    (t ++ rest).takeWhile (· != ';') = t ++ rest.takeWhile (· != ';') := by
  apply List.takeWhile_append_of_pos
  intro c hc
  obtain ⟨-, hcomment⟩ := Bool.and_eq_true_iff.mp (List.all_eq_true.mp ht c hc)
  exact hcomment

/-- A word that ends where a blank or the end of the line follows (R77). -/
theorem lineWords_word_append {t rest : List Char} {others : List (List Char)} (ht : IsLineWord t)
    (hrest : splitBlanks (rest.takeWhile (· != ';')) = [] :: others) :
    lineWords (t ++ rest) = t :: others.filter (fun u => !u.isEmpty) := by
  obtain ⟨hne, hchars⟩ := ht
  have hnonempty : (!t.isEmpty) = true := by simpa using hne
  rw [lineWords, takeWhile_word_append hchars, splitBlanks_append hchars hrest, List.append_nil]
  exact List.filter_cons_of_pos hnonempty

/-- The words of a line made of words with a blank between two are those words (R77). -/
theorem lineWords_intercalate {words : List (List Char)} (h : ∀ t ∈ words, IsLineWord t) :
    lineWords ([' '].intercalate words) = words := by
  induction words with
  | nil => rfl
  | cons t words ih =>
    obtain ⟨ht, hwords⟩ := List.forall_mem_cons.mp h
    cases words with
    | nil =>
      have hend := lineWords_word_append (rest := []) ht rfl
      simpa [List.intercalate] using hend
    | cons u words =>
      have hjoin : [' '].intercalate (t :: u :: words) = t ++ ' ' :: [' '].intercalate (u :: words) := by
        simp [List.intercalate]
      have hblank : splitBlanks ((' ' :: [' '].intercalate (u :: words)).takeWhile (· != ';')) =
          [] :: splitBlanks (([' '].intercalate (u :: words)).takeWhile (· != ';')) := splitBlanks_blank _
      rw [hjoin, lineWords_word_append ht hblank]
      exact congrArg (t :: ·) (ih hwords)

/-! ### The text of a command -/

theorem all_isWordChar_hexNumber (v : Word) : (hexNumber v).all isWordChar = true := by
  have hdigit : ∀ n < 16, isWordChar (hexDigit n) = true := by decide
  have hword : (hexWord v).all isWordChar = true := by
    rw [hexWord, List.all_map, List.all_eq_true]
    exact fun k _ => hdigit _ (Nat.mod_lt _ (by decide))
  exact hword

/-- The words of a command's text: the mnemonic and, for DELTA and CHKDL, the operand (R77). -/
def instrWords : Instr → List (List Char)
  | .ticks => ["TICKS".toList]
  | .delta target => ["DELTA".toList, hexNumber target]
  | .chkdl target => ["CHKDL".toList, hexNumber target]
  | .irqdis => ["IRQDIS".toList]
  | .irqen => ["IRQEN".toList]

theorem isLineWord_mnemonic (i : Instr) : IsLineWord i.mnemonic.toList := by
  cases i <;> simp [IsLineWord, Instr.mnemonic, isWordChar]

theorem isLineWord_instrWords (i : Instr) : ∀ t ∈ instrWords i, IsLineWord t := by
  have hoperand (j : Instr) (v : Word) : ∀ t ∈ [j.mnemonic.toList, hexNumber v], IsLineWord t :=
    List.forall_mem_cons.mpr ⟨isLineWord_mnemonic j,
      List.forall_mem_singleton.mpr ⟨List.cons_ne_nil _ _, all_isWordChar_hexNumber v⟩⟩
  cases i with
  | ticks => exact List.forall_mem_singleton.mpr (isLineWord_mnemonic .ticks)
  | delta target => exact hoperand (.delta target) target
  | chkdl target => exact hoperand (.chkdl target) target
  | irqdis => exact List.forall_mem_singleton.mpr (isLineWord_mnemonic .irqdis)
  | irqen => exact List.forall_mem_singleton.mpr (isLineWord_mnemonic .irqen)

theorem instrText_eq_intercalate (i : Instr) : instrText i = [' '].intercalate (instrWords i) := by
  cases i <;> simp [instrText, instrWords, Instr.mnemonic, List.intercalate]

theorem instrText_append_eq_intercalate (i : Instr) (t : List Char) :
    instrText i ++ ' ' :: t = [' '].intercalate (instrWords i ++ [t]) := by
  cases i <;> simp [instrText, instrWords, Instr.mnemonic, List.intercalate]

theorem assembleWords_instrWords (i : Instr) (draws : List (List Char)) :
    assembleWords (instrWords i ++ draws) = lineOf i draws := by
  cases i with
  | ticks => rfl
  | delta target => simp [instrWords, assembleWords, operandLine]
  | chkdl target => simp [instrWords, assembleWords, operandLine]
  | irqdis => rfl
  | irqen => rfl

theorem lineOf_nil (i : Instr) : lineOf i [] = some ⟨some i, ⟨none, []⟩⟩ := rfl

theorem lineOf_raw (i : Instr) (v : Word) :
    lineOf i ["raw=".toList ++ hexNumber v] = some ⟨some i, ⟨some v, []⟩⟩ := by
  simp [lineOf, parseDraws]

theorem disassemble_encode (i : Instr) : disassemble (encode i) = instrText i := by
  have hdecode := decode_encode i
  have harg : argField (encode i) = i.arg := argField_cmdWord _ _
  cases i <;> simp [disassemble, hdecode, harg, Instr.arg, ignoredArgText]

/-! ### The source's own spelling -/

theorem callOperand_append (name operand : List Char) :
    callOperand name (name ++ operand ++ [')']) = parseWord operand := by
  simp [callOperand]

theorem sourceCall_delta {operand : List Char} {v : Word} (h : parseWord operand = some v) :
    sourceCall ("delta(".toList ++ operand ++ [')']) = some (.delta v) := by
  rw [sourceCall, if_neg (by simp), if_neg (by simp), if_neg (by simp), callOperand_append, h]

theorem sourceCall_chkdl {operand : List Char} {v : Word} (h : parseWord operand = some v) :
    sourceCall ("check_deadline(".toList ++ operand ++ [')']) = some (.chkdl v) := by
  have hdelta : callOperand "delta(".toList ("check_deadline(".toList ++ operand ++ [')']) = none := by
    simp [callOperand]
  rw [sourceCall, if_neg (by simp), if_neg (by simp), if_neg (by simp), hdelta, callOperand_append, h]

theorem sourceCall_sourceText (i : Instr) : sourceCall (sourceText i) = some i := by
  cases i with
  | ticks => rfl
  | delta target => exact sourceCall_delta (parseWord_hexNumber target)
  | chkdl target => exact sourceCall_chkdl (parseWord_hexNumber target)
  | irqdis => rfl
  | irqen => rfl

/-- A call ends in `)`, so it is no mnemonic. -/
theorem assembleWords_call {call : List Char} {i : Instr} (hlast : call.getLast? = some ')')
    (h : sourceCall call = some i) : assembleWords [call] = lineOf i [] := by
  have hname (name : String) (hn : name.toList.getLast? ≠ some ')') : call ≠ name.toList := by
    rintro rfl
    exact hn hlast
  rw [assembleWords, if_neg (hname "TICKS" (by decide)), if_neg (hname "DELTA" (by decide)),
    if_neg (hname "CHKDL" (by decide)), if_neg (hname "IRQDIS" (by decide)), if_neg (hname "IRQEN" (by decide)), h]

theorem getLast?_sourceText (i : Instr) : (sourceText i).getLast? = some ')' := by
  cases i with
  | ticks => rfl
  | delta target => exact List.getLast?_concat
  | chkdl target => exact List.getLast?_concat
  | irqdis => rfl
  | irqen => rfl

theorem isLineWord_sourceText (i : Instr) : IsLineWord (sourceText i) := by
  have hcall {name : List Char} (hname : name.all isWordChar = true) (v : Word) :
      (name ++ hexNumber v ++ [')']).all isWordChar = true := by
    rw [List.all_append, List.all_append, hname, all_isWordChar_hexNumber]
    rfl
  constructor
  · intro hnil
    have hlast := getLast?_sourceText i
    rw [hnil] at hlast
    cases hlast
  · cases i with
    | ticks => rfl
    | delta target => exact hcall (name := "delta(".toList) rfl target
    | chkdl target => exact hcall (name := "check_deadline(".toList) rfl target
    | irqdis => rfl
    | irqen => rfl

/-! ### Lines -/

theorem assembleLine_intercalate {words : List (List Char)} (h : ∀ t ∈ words, IsLineWord t) :
    assembleLine ([' '].intercalate words) = assembleWords words := by
  rw [assembleLine, lineWords_intercalate h]

theorem assembleLine_instrText (i : Instr) : assembleLine (instrText i) = some ⟨some i, ⟨none, []⟩⟩ := by
  have hwords := assembleWords_instrWords i []
  rw [List.append_nil] at hwords
  rw [instrText_eq_intercalate, assembleLine_intercalate (isLineWord_instrWords i), hwords, lineOf_nil]

theorem assembleLine_instrText_raw (i : Instr) (raw : Word) :
    assembleLine (instrText i ++ " raw=".toList ++ hexNumber raw) = some ⟨some i, ⟨some raw, []⟩⟩ := by
  have hraw : IsLineWord ("raw=".toList ++ hexNumber raw) := by
    refine ⟨by simp, ?_⟩
    rw [List.all_append, all_isWordChar_hexNumber]
    rfl
  have htext : instrText i ++ " raw=".toList ++ hexNumber raw =
      [' '].intercalate (instrWords i ++ ["raw=".toList ++ hexNumber raw]) := by
    rw [← instrText_append_eq_intercalate, List.append_assoc]
    rfl
  have hwords : ∀ t ∈ instrWords i ++ ["raw=".toList ++ hexNumber raw], IsLineWord t :=
    List.forall_mem_append.mpr ⟨isLineWord_instrWords i, List.forall_mem_singleton.mpr hraw⟩
  rw [htext, assembleLine_intercalate hwords, assembleWords_instrWords, lineOf_raw]

theorem assembleLine_sourceText (i : Instr) : assembleLine (sourceText i) = some ⟨some i, ⟨none, []⟩⟩ := by
  have hwords : ∀ t ∈ [sourceText i], IsLineWord t := List.forall_mem_singleton.mpr (isLineWord_sourceText i)
  have hline := assembleLine_intercalate hwords
  rw [List.intercalate, List.intersperse_singleton, List.flatten_singleton] at hline
  rw [hline, assembleWords_call (getLast?_sourceText i) (sourceCall_sourceText i), lineOf_nil]

theorem assemble_of_assembleLine {line : List Char} {i : Instr} {d : Draws}
    (h : assembleLine line = some ⟨some i, d⟩) : assemble line = some (encode i) := by
  rw [assemble, h]
  rfl

/-- Settles O6: each text is its words with a blank between two, and the words give back the command. -/
theorem assemblerReadsDisassembly : Obligations.AssemblerReadsDisassembly :=
  ⟨fun i => ⟨disassemble_encode i, assembleLine_instrText i, assemble_of_assembleLine (assembleLine_instrText i)⟩,
    assembleLine_instrText_raw, fun i => assemble_of_assembleLine (assembleLine_sourceText i)⟩

end Sys2Proof.Machine
end

section
/-! PROOFS. TICKS in every state, the wrap a long gap loses, and that time commands see no more of the block than its clock (spec/40_tickclock.md R90, R91, R95, spec/60_exceptions.md R182). -/

namespace Sys2Proof.Machine

/-- Settles O14: `OP = 0` is TICKS whatever `ARG` is, and TICKS is one tick_step with its value answered. -/
theorem ticksResult : Obligations.TicksResult :=
  fun s arg => ⟨decode_cmdWord 0 arg, exec_time_eq rfl s⟩

/-- TICKS where the sample is known: the whole next state (R91). -/
theorem exec_ticks_of_rawIn {s : State} {raw : Word} {rest : List Word} (hraw : s.rawIn = raw :: rest) :
    exec .ticks s =
      .next { s with ovf := ovfUpdate s.cfg.e raw s.ovf, rawIn := rest, rawDraws := s.rawDraws + 1,
                     responses := s.responses ++ [⟨false, tickValue s.cfg.e raw (ovfUpdate s.cfg.e raw s.ovf)⟩] } := by
  have hsample : rawSample s = raw := by simp [rawSample, hraw]
  have htail : s.rawIn.tail = rest := by rw [hraw, List.tail_cons]
  rw [exec_time_eq rfl s, tickStep_fst, tickStep_snd, hsample, ← htail]
  rfl

theorem runAll_cons_of_exec {i : Instr} {is : List Instr} {s t : State} (h : exec i s = .next t) :
    runAll (i :: is) s = runAll is t := by
  rw [runAll, h]

/-- Settles O18: the first sample sets `SEAM` and the second finds it set, so the wrap between them adds nothing. -/
theorem longGapLosesWrap : Obligations.LongGapLosesWrap := by
  intro s rest he hovf hraw
  have hrise : ovfUpdate 6 0xFFFFFFFF 0 = 0x02 := by decide
  have hlost : ovfUpdate 6 0x80000000 0x02 = 0x02 := by decide
  have hbefore : tickValue 6 0xFFFFFFFF 0x02 = 0x03FFFFFF := by decide
  have hafter : tickValue 6 0x80000000 0x02 = 0x02000000 := by decide
  refine ⟨by decide, (runAll_cons_of_exec (exec_ticks_of_rawIn hraw)).trans
    ((runAll_cons_of_exec (exec_ticks_of_rawIn rfl)).trans ?_)⟩
  simp only [runAll, he, hovf, hrise, hbefore, hlost, hafter, List.append_assoc, List.singleton_append]

/-! ### Two blocks with the same clock -/

/-- Two blocks agree on all that tick_step reads: configuration, `OVF` and raw samples (R90). -/
structure SameClock (s u : State) : Prop where
  cfg : s.cfg = u.cfg
  ovf : s.ovf = u.ovf
  rawIn : s.rawIn = u.rawIn
  rawDraws : s.rawDraws = u.rawDraws

/-- One tick_step gives the same tick value in both blocks and leaves them with the same clock. -/
theorem SameClock.tickStep_agree {s u : State} (h : SameClock s u) :
    (tickStep s).1 = (tickStep u).1 ∧ SameClock (tickStep s).2 (tickStep u).2 := by
  have hsample : rawSample s = rawSample u := by rw [rawSample, rawSample, h.rawIn, h.rawDraws]
  constructor
  · rw [tickStep_fst, tickStep_fst, hsample, h.cfg, h.ovf]
  · constructor <;> simp [hsample, h.cfg, h.ovf, h.rawIn, h.rawDraws]

/-- A time command gives the same answer in both blocks and leaves them with the same clock. -/
theorem SameClock.exec_time {i : Instr} (hi : i.isTime = true) {s u : State} (h : SameClock s u) :
    ∃ (t v : State) (answer : Response), exec i s = .next t ∧ exec i u = .next v ∧ SameClock t v ∧
      t.responses = s.responses ++ [answer] ∧ v.responses = u.responses ++ [answer] := by
  obtain ⟨htick, hclock⟩ := h.tickStep_agree
  exact ⟨_, _, ⟨false, answerData i (tickStep s).1⟩, exec_time_eq hi s, exec_time_eq hi u,
    ⟨hclock.cfg, hclock.ovf, hclock.rawIn, hclock.rawDraws⟩, rfl, by rw [htick]; rfl⟩

/-- Time commands one after the other give the same answers in both blocks and leave them with the same clock. -/
theorem SameClock.runAll_time {is : List Instr} (his : ∀ i ∈ is, i.isTime = true) {s u : State}
    (h : SameClock s u) :
    ∃ (t v : State) (answers : List Response), runAll is s = .next t ∧ runAll is u = .next v ∧ SameClock t v ∧
      answers.length = is.length ∧ t.responses = s.responses ++ answers ∧ v.responses = u.responses ++ answers := by
  induction is generalizing s u with
  | nil => exact ⟨s, u, [], rfl, rfl, h, rfl, by simp⟩
  | cons i is ih =>
    obtain ⟨hi, hrest⟩ := List.forall_mem_cons.mp his
    obtain ⟨s', u', answer, hs', hu', hclock, hsrsp, hursp⟩ := h.exec_time hi
    obtain ⟨t, v, answers, ht, hv, hend, hlen, htrsp, hvrsp⟩ := ih hrest hclock
    refine ⟨t, v, answer :: answers, (runAll_cons_of_exec hs').trans ht, (runAll_cons_of_exec hu').trans hv, hend,
      by simp [hlen], ?_, ?_⟩
    · rw [htrsp, hsrsp, List.append_assoc, List.singleton_append]
    · rw [hvrsp, hursp, List.append_assoc, List.singleton_append]

/-- Settles O40: the two blocks keep the same clock through the whole sequence, by induction on its commands. -/
theorem answersDependOnClockOnly : Obligations.AnswersDependOnClockOnly := by
  intro s u is his hcfg hovf hraw hdraws
  have hclock : SameClock s u := ⟨hcfg, hovf, hraw, hdraws⟩
  obtain ⟨t, v, answers, ht, hv, hend, hanswers⟩ := hclock.runAll_time his
  exact ⟨t, v, answers, ht, hv, hend.ovf, hanswers⟩

end Sys2Proof.Machine
end

section
/-! PROOFS. DELTA and CHKDL: the distance from now to a target as a signed word (spec/41_deadline.md R110 to R113). -/

namespace Sys2Proof.Machine

/-! ### The signed reading of a distance -/

/-- A word made of an integer reads as the number of the window that differs from it by whole turns of the tick counter. -/
theorem asI32_ofInt {d v : Int} (hv : InWindow v) (hturns : (2 ^ 32 : Int) ∣ v - d) :
    asI32 (BitVec.ofInt 32 d) = v := by
  obtain ⟨hlow, hhigh⟩ := hv
  rw [asI32, BitVec.toInt_ofInt, Int.bmod_eq_iff (by decide)]
  exact ⟨hlow, by omega, hturns⟩

theorem asI32_ofInt_of_inWindow {d : Int} (hd : InWindow d) : asI32 (BitVec.ofInt 32 d) = d :=
  asI32_ofInt hd (by simp)

theorem asI32_inWindow (v : Word) : InWindow (asI32 v) :=
  ⟨v.le_toInt, Int.le_sub_one_of_lt v.toInt_lt⟩

theorem asI32_sub (a b : Word) : asI32 (a - b) = ((a.toNat : Int) - b.toNat).bmod (2 ^ 32) := by
  rw [asI32, BitVec.toInt_sub, BitVec.toInt_eq_toNat_bmod, BitVec.toInt_eq_toNat_bmod, Int.bmod_sub_bmod,
    Int.sub_bmod_bmod]

theorem asI32_nonpos_iff (v : Word) : asI32 v ≤ 0 ↔ v = 0 ∨ v.getLsbD 31 = true := by
  have hzero : v.toInt = 0 ↔ v = 0 := BitVec.toInt_inj (y := 0)
  have hsign : v.getLsbD 31 = decide (v.toInt < 0) := v.msb_eq_getLsbD_last.symm.trans BitVec.msb_eq_toInt
  rw [asI32, le_iff_eq_or_lt, hzero, hsign, decide_eq_true_iff]

/-! ### Answers at a tick value -/

theorem chkdl_eq_one_iff (target t : Word) : answerData (.chkdl target) t = 1 ↔ asI32 (target - t) ≤ 0 :=
  Ne.ite_eq_left_iff (by decide)

theorem chkdl_eq_zero_or_one (target t : Word) : answerData (.chkdl target) t = 0 ∨ answerData (.chkdl target) t = 1 :=
  (ite_eq_or_eq _ _ _).symm

theorem delta_add_right (t : Word) (d : Int) : answerData (.delta (t + BitVec.ofInt 32 d)) t = BitVec.ofInt 32 d :=
  add_sub_cancel_left t _

/-- Of a target that lies fewer than `2^31` ticks back the distance is that number, negated. -/
theorem asI32_sub_nonpos {t1 t2 : Word} (h : (t2 - t1).toNat < 2 ^ 31) : asI32 (t1 - t2) ≤ 0 := by
  have hback : t1 - t2 = BitVec.ofInt 32 (-(t2 - t1).toNat) := by
    rw [BitVec.ofInt_neg, BitVec.ofInt_natCast, BitVec.ofNat_toNat, BitVec.setWidth_eq]
    exact (neg_sub t2 t1).symm
  have hwindow : InWindow (-(t2 - t1).toNat : Int) := by
    constructor <;> omega
  rw [hback, asI32_ofInt_of_inWindow hwindow]
  omega

/-- Every time command answers at the tick value TICKS would answer (R91, R110, R111). -/
theorem exec_time_at_ticks_answer {i : Instr} (hi : i.isTime = true) {s u : State} {t : Word}
    (hu : exec .ticks s = .next u) (ht : u.responses = s.responses ++ [⟨false, t⟩]) :
    ∃ v, exec i s = .next v ∧ v.responses = s.responses ++ [⟨false, answerData i t⟩] := by
  obtain rfl : (tickStep s).2.respond false (tickStep s).1 = u := by
    injection (exec_time_eq (i := .ticks) rfl s).symm.trans hu
  obtain rfl : (tickStep s).1 = t := by simpa using ht
  exact ⟨_, exec_time_eq hi s, rfl⟩

/-! ### The statements -/

/-- Settles O20: `OP = 1` is DELTA of its `ARG`, and DELTA is one tick_step with the distance answered. -/
theorem deltaResult : Obligations.DeltaResult := by
  intro s target
  refine ⟨decode_cmdWord 1 target, _, (tickStep s).1, answerData (.delta target) (tickStep s).1,
    exec_time_eq rfl s, rfl, exec_time_eq rfl s, ?_, asI32_sub _ _⟩
  rw [answerData, BitVec.toNat_sub, Nat.add_comm]

/-- Settles O21: `OP = 2` is CHKDL of its `ARG`, and CHKDL is one tick_step with the test of the distance answered. -/
theorem chkdlResult : Obligations.ChkdlResult := by
  intro s target
  refine ⟨decode_cmdWord 2 target, _, (tickStep s).1, answerData (.chkdl target) (tickStep s).1,
    exec_time_eq rfl s, rfl, exec_time_eq rfl s, ?signed, ?bits, chkdl_eq_zero_or_one _ _⟩
  case signed => rw [chkdl_eq_one_iff, asI32_sub]
  case bits => rw [chkdl_eq_one_iff, asI32_nonpos_iff]

/-- Settles O22: each item is the signed reading of one distance. -/
theorem deltaIdentities : Obligations.DeltaIdentities := by
  refine ⟨?ahead, fun t1 t2 h => asI32_sub_nonpos h, chkdl_eq_one_iff, ?reached,
    fun a b t => sub_sub_sub_cancel_right a b t, ?answers⟩
  case ahead =>
    intro t1 k hk
    rw [delta_add_right, asI32_ofInt_of_inWindow hk]
  case reached =>
    intro t d hd
    have hdist : t + BitVec.ofInt 32 d - t = BitVec.ofInt 32 d := delta_add_right t d
    rw [chkdl_eq_one_iff, hdist, asI32_ofInt_of_inWindow hd]
  case answers =>
    intro s i hi
    exact ⟨_, _, _, exec_time_eq rfl s, rfl, exec_time_eq hi s, rfl⟩

/-- Settles O23: the distance is `d` modulo 2^32, which reads as `d` in the window and as `d` less or more one turn of the
tick counter beyond it. -/
theorem deadlineWindow : Obligations.DeadlineWindow := by
  rintro s u n d t hu ht rfl
  obtain ⟨v, hv, hrsp⟩ := exec_time_at_ticks_answer (i := .delta (BitVec.ofInt 32 (n + d))) rfl hu ht
  rw [BitVec.ofInt_add, delta_add_right] at hrsp
  refine ⟨v, _, hv, hrsp, asI32_ofInt_of_inWindow, ?ahead, ?behind⟩
  case ahead =>
    intro hlow hhigh
    rw [asI32_ofInt (v := d - 2 ^ 32) (by constructor <;> omega) (by simp)]
    omega
  case behind =>
    intro hlow hhigh
    rw [asI32_ofInt (v := d + 2 ^ 32) (by constructor <;> omega) (by simp)]
    omega

end Sys2Proof.Machine
end

section
/-! PROOFS. The sleeps of WAIT_UNTIL (spec/41_deadline.md R114, R115). -/

namespace Sys2Proof.Machine

/-! ### One turn of the loop -/

theorem sleepArg_toNat {n : Nat} (h : n < 2 ^ 32) : (sleepArg n).toNat = n := by
  rw [sleepArg, if_pos h, BitVec.toNat_ofNat, Nat.mod_eq_of_lt h]

theorem waitLoop_fine {c : Config} {d : Int} (hd : d ≤ c.maxChunkTicks) (turns : Nat) :
    waitLoop c (turns + 1) d = some (fineSleep c d) :=
  if_neg (Int.not_lt.mpr hd)

theorem waitLoop_coarse {c : Config} {d : Int} (hd : (c.maxChunkTicks : Int) < d) (turns : Nat) :
    waitLoop c (turns + 1) d =
      (waitLoop c turns (remainingAfter c d)).map (.sleepMs (sleepArg c.coarseMs) :: ·) :=
  if_pos hd

theorem remainingAfter_of_i32 {c : Config} {d : Int} (h : -2 ^ 31 ≤ d - c.coarseTicks) :
    remainingAfter c d = d - c.coarseTicks :=
  if_pos h

/-- Where the difference is no `i32` the remaining delta is a free one (log entry 10). -/
theorem remainingAfter_inWindow_of_not_i32 {c : Config} {d : Int} (h : d - c.coarseTicks < -2 ^ 31) :
    InWindow (remainingAfter c d) := by
  rw [remainingAfter, if_neg (Int.not_le.mpr h)]
  exact asI32_inWindow _

/-! ### The whole loop -/

/-- From `d` ticks the loop makes `k` coarse turns, each with more than MAX_CHUNK_TICKS remaining, and stops at most
MAX_CHUNK_TICKS from the target (R114). -/
abbrev CoarseTurns (c : Config) (d : Int) (k : Nat) : Prop :=
  d - k * c.coarseTicks ≤ c.maxChunkTicks ∧ ∀ j < k, (c.maxChunkTicks : Int) < d - j * c.coarseTicks

theorem rest_succ (c : Config) (d : Int) (k : Nat) :
    d - (k + 1 : Nat) * c.coarseTicks = d - c.coarseTicks - k * c.coarseTicks := by
  push_cast
  ring

/-- One more coarse turn in front. -/
theorem CoarseTurns.succ {c : Config} {d : Int} {k : Nat} (hd : (c.maxChunkTicks : Int) < d)
    (h : CoarseTurns c (d - c.coarseTicks) k) : CoarseTurns c d (k + 1) := by
  obtain ⟨hstop, hmore⟩ := h
  refine ⟨(rest_succ c d k).trans_le hstop, fun j hj => ?_⟩
  cases j with
  | zero => simpa using hd
  | succ j => exact (hmore j (Nat.lt_of_succ_lt_succ hj)).trans_eq (rest_succ c d j).symm

/-- The last coarse turn began with more than MAX_CHUNK_TICKS, so it passes the target by less than what it takes away
beyond them (R115 (e)). -/
theorem CoarseTurns.overshoot_lt {c : Config} {d : Int} {k : Nat} (h : CoarseTurns c d k) (hd : 0 < d)
    (hover : d - k * c.coarseTicks < 0) :
    -(d - k * c.coarseTicks) < (c.coarseTicks : Int) - c.maxChunkTicks := by
  obtain ⟨-, hmore⟩ := h
  cases k with
  | zero => exact absurd hover (by simpa using hd.le)
  | succ k =>
    have hlast := hmore k (Nat.lt_succ_self k)
    push_cast
    linarith

/-- The loop is over in time, as every turn takes at least one tick away: its coarse sleeps, then the sleep for the rest
(R114). -/
theorem waitLoop_eq {c : Config} (hcoarse : c.coarseTicks ≤ 2 ^ 31) {turns : Nat} {d : Int} (hturns : d.toNat < turns) :
    ∃ k : Nat, CoarseTurns c d k ∧ waitLoop c turns d =
      some (List.replicate k (.sleepMs (sleepArg c.coarseMs)) ++ fineSleep c (d - k * c.coarseTicks)) := by
  induction turns generalizing d with
  | zero => exact absurd hturns (Nat.not_lt_zero _)
  | succ turns ih =>
    by_cases hd : (c.maxChunkTicks : Int) < d
    · obtain ⟨-, -, hticks⟩ := c.wait_pos
      have hi32 : -2 ^ 31 ≤ d - c.coarseTicks := by omega
      obtain ⟨k, hk, hloop⟩ := ih (d := d - c.coarseTicks) (by omega)
      refine ⟨k + 1, hk.succ hd, ?_⟩
      rw [waitLoop_coarse hd, remainingAfter_of_i32 hi32, hloop, rest_succ]
      rfl
    · refine ⟨0, ⟨by simpa using hd, by simp⟩, ?_⟩
      rw [waitLoop_fine (Int.not_lt.mp hd)]
      simp

/-- Settles O42: no turn for a target reached, the loop in closed form while its deltas are `i32`, and one turn to a free
`i32` where they are not. -/
theorem waitSleepsMatchDelta : Obligations.WaitSleepsMatchDelta := by
  intro c d _
  refine ⟨?reached, ?ahead, ?noI32⟩
  case reached =>
    intro hd turns hturns
    obtain ⟨turns, rfl⟩ := Nat.exists_eq_succ_of_ne_zero hturns.ne'
    rw [waitLoop_fine (by omega), fineSleep, if_neg (Int.not_lt.mpr hd)]
  case ahead =>
    intro hd hcoarse turns hturns
    obtain ⟨k, hk, hloop⟩ := waitLoop_eq hcoarse hturns
    have ⟨hstop, hmore⟩ := hk
    exact ⟨k, _, sleepArg c.coarseMs, sleepArg _, rfl, hstop, hmore, hk.overshoot_lt hd, sleepArg_toNat,
      sleepArg_toNat, hloop⟩
  case noI32 =>
    intro hd hno
    exact ⟨_, _, remainingAfter_inWindow_of_not_i32 hno, sleepArg_toNat, waitLoop_coarse hd⟩

end Sys2Proof.Machine
end

section
/-! PROOFS. IRQDIS and IRQEN at every depth, and nesting misuse as the only reason a step stops (spec/42_irqguard.md R130 to R134, spec/60_exceptions.md R170, R172, R174). -/

namespace Sys2Proof

theorem Instr.isTime_or_guard (i : Instr) : i.isTime = true ∨ i = .irqdis ∨ i = .irqen := by
  cases i <;> simp [isTime]

theorem Instr.ne_guard_of_isTime {i : Instr} (hi : i.isTime = true) : i ≠ .irqdis ∧ i ≠ .irqen := by
  constructor <;> rintro rfl <;> cases hi

end Sys2Proof

namespace Sys2Proof.Machine

/-- Settles O24: with room the whole next state, and at the top of the register no room. -/
theorem irqdisResult : Obligations.IrqdisResult :=
  fun s arg => ⟨decode_cmdWord 3 arg, exec_irqdis_eq s, fun hmax => exec_irqdis_overflow s (by omega)⟩

/-- Settles O25: one case per depth, 2 and above, 1, and 0; POLL is the one of the top level, in closed form. -/
theorem irqenResult : Obligations.IrqenResult :=
  fun s arg => ⟨decode_cmdWord 4 arg, exec_irqen_nested s, exec_irqen_top s, exec_irqen_underflow s⟩

/-- The word `w` at state `s` misuses the guard, under the name `f`: an IRQEN that nothing matches (R133), or an IRQDIS
that `NEST` cannot count (R134). -/
def MisusesGuard (w : CmdWord) (s : State) (f : Fault) : Prop :=
  (decode w = .command .irqen ∧ s.nest = 0 ∧ f = .nestUnderflow) ∨
    (decode w = .command .irqdis ∧ 2 ^ s.cfg.nestW ≤ s.nest + 1 ∧ f = .nestOverflow)

theorem exec_irqdis_eq_fault_iff (s : State) (f : Fault) :
    exec .irqdis s = .fault f ↔ 2 ^ s.cfg.nestW ≤ s.nest + 1 ∧ f = .nestOverflow := by
  by_cases hroom : s.nest + 1 < 2 ^ s.cfg.nestW
  · simp [exec_irqdis_eq s hroom, hroom]
  · have hfull := Nat.not_lt.mp hroom
    simp [exec_irqdis_overflow s hfull, hfull, eq_comm]

theorem exec_irqen_eq_fault_iff (s : State) (f : Fault) :
    exec .irqen s = .fault f ↔ s.nest = 0 ∧ f = .nestUnderflow := by
  obtain h0 | h1 | h2 : s.nest = 0 ∨ s.nest = 1 ∨ 2 ≤ s.nest := by omega
  · simp [exec_irqen_underflow s h0, h0, eq_comm]
  · simp [exec_irqen_top_eq_enableAndPoll s h1, h1]
  · have hne : s.nest ≠ 0 := by omega
    simp [exec_irqen_nested s h2, hne]

theorem accept_eq_fault_iff (w : CmdWord) (s : State) (f : Fault) :
    accept w s = .fault f ↔ MisusesGuard w s f := by
  cases hd : decode w with
  | illegal op => simp [accept, MisusesGuard, hd]
  | command i =>
    rw [accept_of_decode hd, MisusesGuard, hd]
    obtain hi | rfl | rfl := i.isTime_or_guard
    · simp [exec_time_eq hi, Instr.ne_guard_of_isTime hi]
    · simp [exec_irqdis_eq_fault_iff]
    · simp [exec_irqen_eq_fault_iff]

theorem accept_ne_refused (w : CmdWord) (s : State) (r : Refusal) : accept w s ≠ .refused r := by
  unfold accept
  split
  · exact exec_ne_refused _ s r
  · simp

/-- A line's draws and the giving back of the environment decide nothing about whether its step stops. -/
theorem acceptLine_stops_iff (w : CmdWord) (d : Draws) (s : State) :
    (∀ f, acceptLine w d s = .fault f ↔ MisusesGuard w s f) ∧ ∀ r, acceptLine w d s ≠ .refused r := by
  have hfault : ∀ f, accept w (s.setEnv d.raws (d.levels s.cfg.numDio)) = .fault f ↔ MisusesGuard w s f :=
    accept_eq_fault_iff w (s.setEnv d.raws (d.levels s.cfg.numDio))
  have hrefused := accept_ne_refused w (s.setEnv d.raws (d.levels s.cfg.numDio))
  rw [acceptLine]
  cases ha : accept w (s.setEnv d.raws (d.levels s.cfg.numDio)) with
  | next t => simpa [ha] using hfault
  | fault g => simpa [ha] using hfault
  | refused r => exact absurd ha (hrefused r)

/-- The step of an accepted word stops exactly if the word misuses the guard. -/
theorem step_stops_iff_of_accepted {s : State} {w : CmdWord} (hw : acceptedWord s = some w) :
    (∀ f, step s = .fault f ↔ MisusesGuard w s f) ∧ ∀ r, step s ≠ .refused r := by
  obtain ⟨hf, rest, hcommand | ⟨d, hline⟩⟩ := acceptedWord_eq_some hw
  · rw [step_command hf hcommand]
    exact ⟨accept_eq_fault_iff w (s.setInputs rest), accept_ne_refused w (s.setInputs rest)⟩
  · rw [step_line hf hline]
    exact acceptLine_stops_iff w d (s.setInputs rest)

/-- A step that accepts no word, a wait or a reset, has a next state (R21, R28, R200). -/
theorem step_next_of_nothing_accepted {s : State} (hw : acceptedWord s = none) : StepSafe s := by
  cases hf : s.failed with
  | true => exact ⟨servePortFailed s, by simp [step, servePort, hf]⟩
  | false =>
    match hi : s.inputs with
    | [] => exact ⟨s, by simp [step, servePort, servePortReady, hf, hi]⟩
    | .reset :: rest => exact ⟨_, step_reset hi⟩
    | .command w :: rest => simp [acceptedWord, hf, hi] at hw
    | .line w d :: rest => simp [acceptedWord, hf, hi] at hw

/-- Settles O11: only an accepted word can stop a step, and it does so exactly if it misuses the guard. -/
theorem faultsExactlyOnNestingMisuse : Obligations.FaultsExactlyOnNestingMisuse := by
  rw [Obligations.FaultsExactlyOnNestingMisuse, ← forall_and]
  intro s
  cases hw : acceptedWord s with
  | none =>
    obtain ⟨t, ht⟩ := step_next_of_nothing_accepted hw
    simp [ht]
  | some w =>
    obtain ⟨hfault, hrefused⟩ := step_stops_iff_of_accepted hw
    simpa [hrefused, MisusesGuard] using hfault

end Sys2Proof.Machine
end

section
/-! PROOFS. Sequences of guard and time commands: they complete exactly when they are paired, and each return to depth 0 enables once and polls once (spec/42_irqguard.md R132, spec/70_reset_and_hazards.md R205, R206). -/

namespace Sys2Proof.Machine

/-! ### What a run makes of its first command -/

/-- A command that completes leaves to the commands after it the pairing and the depth they started with. -/
theorem paired_cons_of_exec {i : Instr} {s t : State} (h : exec i s = .next t) (is : List Instr) :
    pairedFrom s.cfg.nestW s.nest (i :: is) = pairedFrom t.cfg.nestW t.nest is ∧
      depthAfter s.nest (i :: is) = depthAfter t.nest is := by
  rcases exec_cases h with ⟨hi, rfl⟩ | ⟨rfl, hroom, rfl⟩ | ⟨rfl, hn, rfl⟩ | ⟨rfl, hn, _, _, _, _, _, rfl⟩
  · exact paired_time_cons hi s.cfg.nestW s.nest is
  · exact ⟨pairedFrom_irqdis_cons hroom is, rfl⟩
  · obtain ⟨n, hn⟩ : ∃ n, s.nest = n + 1 := ⟨s.nest - 1, by omega⟩
    simp [hn, pairedFrom, depthAfter]
  · simp [hn, pairedFrom, depthAfter]

/-- A sequence that breaks an obligation meets a command that faults (R205, R206). -/
theorem runAll_faults_of_not_paired {is : List Instr} {s : State} (h : pairedFrom s.cfg.nestW s.nest is = false) :
    ∃ f, runAll is s = .fault f := by
  induction is generalizing s with
  | nil => simp [pairedFrom] at h
  | cons i is ih =>
    cases he : exec i s with
    | next t =>
      obtain ⟨hpaired, -⟩ := paired_cons_of_exec he is
      rw [runAll_cons_of_exec he]
      exact ih (hpaired.symm.trans h)
    | fault f => exact ⟨f, by rw [runAll, he]⟩
    | refused r => exact absurd he (exec_ne_refused i s r)

/-- Settles O28: a paired sequence completes at the depth of its pairing, any other meets its fault. -/
theorem pairedCommandsComplete : Obligations.PairedCommandsComplete :=
  fun _ _ => ⟨runAll_of_pairedFrom, runAll_faults_of_not_paired⟩

/-! ### Enables and polls of a run -/

/-- What every completed command keeps, with the commands to come in view, a completed run keeps. -/
theorem runAll_keeps {P : List Instr → State → Prop}
    (hexec : ∀ i is s t, exec i s = .next t → P (i :: is) s → P is t) {is : List Instr} {s t : State}
    (h : runAll is s = .next t) (hs : P is s) : P [] t := by
  induction is generalizing s with
  | nil =>
    cases h
    exact hs
  | cons i is ih =>
    cases he : exec i s with
    | next u =>
      rw [runAll_cons_of_exec he] at h
      exact ih h (hexec i is s u he hs)
    | fault f => simp [runAll, he] at h
    | refused r => simp [runAll, he] at h

theorem topLevelEnables_time_cons {i : Instr} (hi : i.isTime = true) (d : Nat) (is : List Instr) :
    topLevelEnables d (i :: is) = topLevelEnables d is := by
  cases i with
  | ticks => rfl
  | delta target => rfl
  | chkdl target => rfl
  | irqdis => cases hi
  | irqen => cases hi

/-- Enables and POLL passes, those made and those to come. -/
def enablesAndPolls (is : List Instr) (s : State) : Nat × Nat :=
  (s.trace.count .hwIrqEnable + topLevelEnables s.nest is, s.pollCount + topLevelEnables s.nest is)

/-- Only a command that brings the depth from 1 to 0 enables and polls, and it does each once (R131). -/
theorem exec_conserves_enablesAndPolls (i : Instr) (is : List Instr) (s t : State) (h : exec i s = .next t) :
    enablesAndPolls (i :: is) s = enablesAndPolls is t := by
  rcases exec_cases h with ⟨hi, rfl⟩ | ⟨rfl, _, rfl⟩ | ⟨rfl, hn, rfl⟩ | ⟨rfl, hn, _, _, slots, _, _, rfl⟩
  · simp [enablesAndPolls, topLevelEnables_time_cons hi]
  · simp [enablesAndPolls, topLevelEnables]
  · have hne : s.nest ≠ 1 := by omega
    simp [enablesAndPolls, topLevelEnables, hne]
  · have hradio : (slots.map Event.radioIrq).count .hwIrqEnable = 0 := List.count_eq_zero_of_not_mem (by simp)
    simp [enablesAndPolls, topLevelEnables, hn, hradio, Nat.add_assoc]

theorem runAll_conserves_enablesAndPolls {is : List Instr} {s t : State} (h : runAll is s = .next t) :
    enablesAndPolls is s = enablesAndPolls [] t :=
  runAll_keeps (P := fun rest u => enablesAndPolls is s = enablesAndPolls rest u)
    (fun i rest u v he hu => hu.trans (exec_conserves_enablesAndPolls i rest u v he)) h rfl

theorem runAll_keeps_guardHolds {is : List Instr} {s t : State} (h : runAll is s = .next t) (hs : GuardHolds s) :
    GuardHolds t :=
  runAll_keeps (P := fun _ u => GuardHolds u) (fun _ _ _ _ he hu => exec_keeps_guardHolds he hu) h hs

theorem runAll_balanced {s : State} {is : List Instr} (hguard : GuardHolds s) (hnest : s.nest = 0)
    (hpaired : pairedFrom s.cfg.nestW 0 is = true) (hdepth : depthAfter 0 is = 0) :
    ∃ t, runAll is s = .next t ∧ t.nest = 0 ∧ t.ien = true ∧
      t.trace.count .hwIrqEnable = s.trace.count .hwIrqEnable + topLevelEnables 0 is ∧
      t.pollCount = s.pollCount + topLevelEnables 0 is := by
  rw [← hnest] at hpaired hdepth ⊢
  obtain ⟨t, ht, htnest⟩ := runAll_of_pairedFrom hpaired
  have hzero : t.nest = s.nest := htnest.trans hdepth
  obtain ⟨henables, hpolls⟩ := Prod.ext_iff.mp (runAll_conserves_enablesAndPolls ht)
  exact ⟨t, ht, hzero, (runAll_keeps_guardHolds ht hguard).mpr (hzero.trans hnest), henables.symm, hpolls.symm⟩

/-! ### `n` IRQDIS, then `n` IRQEN -/

/-- How many of `n` IRQDIS (`d`) and of the `n` IRQEN after them (`e`) can have been issued. -/
def RoundCounts (n d e : Nat) : Prop := d ≤ n ∧ e ≤ n ∧ (0 < e → d = n)

theorem roundCounts_of_prefix_replicate {n : Nat} {q : List Instr}
    (h : q <+: List.replicate n .irqdis ++ List.replicate n .irqen) :
    RoundCounts n (q.count .irqdis) (q.count .irqen) := by
  obtain ⟨k, rfl⟩ : ∃ k, q = List.take k (List.replicate n .irqdis ++ List.replicate n .irqen) :=
    ⟨q.length, List.prefix_iff_eq_take.mp h⟩
  simp [RoundCounts, List.take_append, List.take_replicate, List.count_replicate]
  omega

/-- Time commands anywhere among them count for nothing. -/
theorem roundCounts_of_prefix {n : Nat} {is p : List Instr}
    (his : is.filter (fun i => !i.isTime) = List.replicate n .irqdis ++ List.replicate n .irqen) (hp : p <+: is) :
    RoundCounts n (p.count .irqdis) (p.count .irqen) := by
  have hguards : p.filter (fun i => !i.isTime) <+: List.replicate n .irqdis ++ List.replicate n .irqen :=
    his ▸ hp.filter _
  have hcounts := roundCounts_of_prefix_replicate hguards
  rwa [List.count_filter rfl, List.count_filter rfl] at hcounts

/-- What R132 says of the state `t` that `d` IRQDIS and `e` IRQEN out of `n` of each made of `s`; `slots` are the edges
of the one POLL. -/
structure RoundState (s : State) (n d e : Nat) (slots : List Nat) (t : State) : Prop where
  cfg : t.cfg = s.cfg
  nest : t.nest = d - e
  trace : t.trace = s.trace ++ List.replicate d .hwIrqDisable ++
    if e = n then .hwIrqEnable :: slots.map .radioIrq else []
  pollCount : t.pollCount = s.pollCount + if e = n then 1 else 0
  ien : 1 ≤ d → t.ien = decide (e = n)

namespace RoundState

variable {s t : State} {n d e : Nat} {slots : List Nat}

theorem start (hs : s.nest = 0) (hn : 1 ≤ n) : RoundState s n 0 0 [] s := by
  have hne : 0 ≠ n := by omega
  constructor <;> simp [hs, hne]

theorem time {i : Instr} (h : RoundState s n d e slots t) (hi : i.isTime = true) :
    ∃ u, exec i t = .next u ∧ RoundState s n d e slots u :=
  ⟨_, exec_time_eq hi t, h.cfg, h.nest, h.trace, h.pollCount, h.ien⟩

/-- An IRQDIS comes before every IRQEN, so the depth is still below `n` (R130). -/
theorem irqdis (h : RoundState s n d e slots t) (hn : n ≤ 2 ^ s.cfg.nestW - 1) (he : e = 0) (hd : d < n) :
    ∃ u, exec .irqdis t = .next u ∧ RoundState s n (d + 1) e slots u := by
  subst he
  obtain ⟨hcfg, hnest, htrace, hpolls, -⟩ := h
  have hroom : t.nest + 1 < 2 ^ t.cfg.nestW := by
    rw [hcfg, hnest]
    omega
  have hne : 0 ≠ n := by omega
  refine ⟨_, exec_irqdis_eq t hroom, hcfg, by simp [hnest], ?_, hpolls, fun _ => by simp [hne]⟩
  simp [htrace, hne, List.replicate_succ']

/-- An IRQEN comes after all `n` IRQDIS: it is nested but for the `n`-th, which enables and polls (R131). -/
theorem irqen (h : RoundState s n n e slots t) (he : e < n) :
    ∃ u slots', exec .irqen t = .next u ∧ RoundState s n n (e + 1) slots' u := by
  obtain ⟨hcfg, hnest, htrace, hpolls, hien⟩ := h
  have hne : e ≠ n := by omega
  simp only [hne, if_false, decide_false, List.append_nil] at htrace hpolls hien
  by_cases hlast : e + 1 = n
  · obtain ⟨dio, pins, edges, -, -, hu⟩ := exec_irqen_top_frame t (by omega)
    refine ⟨_, edges, hu, hcfg, by simp [hlast], ?_, by simp [hlast, hpolls], fun _ => by simp [hlast]⟩
    simp [htrace, hlast]
  · refine ⟨_, slots, exec_irqen_nested t (by omega), hcfg, ?_, ?_, ?_, ?_⟩
    · simp [hnest, Nat.sub_sub]
    · simp [htrace, hlast]
    · simp [hpolls, hlast]
    · simpa [hlast] using hien

end RoundState

theorem runAll_concat {p : List Instr} {i : Instr} {s t u : State} (hp : runAll p s = .next t)
    (hi : exec i t = .next u) : runAll (p ++ [i]) s = .next u := by
  simp [runAll_append, hp, runAll, hi]

theorem runAll_rounds_prefix {s : State} {n : Nat} {is p : List Instr} (hs : s.nest = 0) (hpos : 1 ≤ n)
    (hn : n ≤ 2 ^ s.cfg.nestW - 1)
    (his : is.filter (fun i => !i.isTime) = List.replicate n .irqdis ++ List.replicate n .irqen) (hp : p <+: is) :
    ∃ t slots, runAll p s = .next t ∧ RoundState s n (p.count .irqdis) (p.count .irqen) slots t := by
  induction p using List.reverseRecOn with
  | nil => exact ⟨s, [], rfl, RoundState.start hs hpos⟩
  | append_singleton p i ih =>
    have hbefore : p <+: is := (List.prefix_append p [i]).trans hp
    obtain ⟨t, slots, ht, hround⟩ := ih hbefore
    obtain ⟨-, -, hdone⟩ := roundCounts_of_prefix his hbefore
    obtain ⟨hdis, hen, hdone'⟩ := roundCounts_of_prefix his hp
    simp only [List.count_append] at hdis hen hdone' ⊢
    obtain hi | rfl | rfl := i.isTime_or_guard
    · obtain ⟨u, hu, hnext⟩ := hround.time hi
      refine ⟨u, slots, runAll_concat ht hu, ?_⟩
      simpa [List.count_singleton, Instr.ne_guard_of_isTime hi] using hnext
    · rw [List.count_singleton_self] at hdis
      obtain ⟨u, hu, hnext⟩ := hround.irqdis hn (by omega) (by omega)
      exact ⟨u, slots, runAll_concat ht hu, hnext⟩
    · have hall : p.count .irqdis = n := hdone' (by simp)
      rw [hall] at hround
      obtain ⟨u, slots', hu, hnext⟩ := hround.irqen hen
      refine ⟨u, slots', runAll_concat ht hu, ?_⟩
      rw [hall]
      exact hnext

/-- Settles O27: the rounds by induction on the commands issued, the last one last; the balanced sequences by what
every command conserves. -/
theorem nestingReenablesOnce : Obligations.NestingReenablesOnce := by
  refine ⟨fun s n is p hs hpos hn his hp => ?_, fun s is => runAll_balanced⟩
  obtain ⟨t, slots, ht, -, hnest, htrace, hpolls, hien⟩ := runAll_rounds_prefix hs hpos hn his hp
  exact ⟨t, slots, ht, hnest, htrace, hpolls, hien⟩

end Sys2Proof.Machine
end

section
/-! PROOFS. When a POLL pass runs, what one pass does to each slot, and the passes of a run (spec/43_pinpoll.md R150 to R155). -/

namespace Sys2Proof.Machine

/-! ### Steps with a POLL pass and steps without -/

/-- From `s` to `t` one POLL pass ran, its events after `HwIrqEnable` (R151). -/
def RanPoll (s t : State) : Prop :=
  t.pollCount = s.pollCount + 1 ∧ ∃ slots : List Nat, t.trace = s.trace ++ .hwIrqEnable :: slots.map .radioIrq

/-- From `s` to `t` no POLL pass ran, and nothing of the pins was touched (R151). -/
def RanNoPoll (s t : State) : Prop :=
  t.pollCount = s.pollCount ∧ t.dio = s.dio ∧ t.pinIn = s.pinIn ∧
    ∀ k, t.trace.count (.radioIrq k) = s.trace.count (.radioIrq k)

theorem exec_irqen_ranPoll {s t : State} (h : exec .irqen s = .next t) (hn : s.nest = 1) : RanPoll s t := by
  obtain ⟨_, _, slots, -, -, ht⟩ := exec_irqen_top_frame s hn
  rw [ht, Host.Outcome.next.injEq] at h
  subst h
  exact ⟨rfl, slots, rfl⟩

theorem exec_ranNoPoll {i : Instr} {s t : State} (h : exec i s = .next t) (hi : ¬ IsTopLevelEnable i s) :
    RanNoPoll s t := by
  rcases exec_cases h with ⟨_, rfl⟩ | ⟨_, _, rfl⟩ | ⟨_, _, rfl⟩ | ⟨hirqen, hn, _⟩
  · exact ⟨rfl, rfl, rfl, fun _ => rfl⟩
  · exact ⟨rfl, rfl, rfl, fun _ => by simp⟩
  · exact ⟨rfl, rfl, rfl, fun _ => rfl⟩
  · exact absurd ⟨hirqen, hn⟩ hi

theorem accept_ranNoPoll {w : CmdWord} {s t : State} (h : accept w s = .next t)
    (hw : ¬(decode w = .command .irqen ∧ s.nest = 1)) : RanNoPoll s t := by
  rcases accept_cases h with ⟨_, rfl⟩ | ⟨i, hd, hi⟩
  · exact ⟨rfl, rfl, rfl, fun _ => rfl⟩
  · refine exec_ranNoPoll hi ?_
    rintro ⟨rfl, hn⟩
    exact hw ⟨hd, hn⟩

/-- A step that accepts no word waits or resets (R21, R28, R200). -/
theorem step_cases_of_nothing_accepted {s t : State} (hw : acceptedWord s = none) (h : step s = .next t) :
    t = s ∨ (StepsReset s ∧ ∃ rest, t = restart (s.setInputs rest)) := by
  rcases step_cases h with rfl | ⟨rest, hmem, ht⟩ | ⟨hf, w, rest, hi, _⟩ | ⟨hf, w, d, rest, _, hi, _⟩
  · exact .inl rfl
  · refine .inr ⟨?_, rest, ht⟩
    cases hf : s.failed with
    | true => exact .inl ⟨hf, hmem⟩
    | false =>
      match hi : s.inputs with
      | [] => simp [hi] at hmem
      | .reset :: _ => exact .inr ⟨hf, by rw [hi]; rfl⟩
      | .command w :: _ => simp [acceptedWord, hf, hi] at hw
      | .line w _ :: _ => simp [acceptedWord, hf, hi] at hw
  · simp [acceptedWord, hf, hi] at hw
  · simp [acceptedWord, hf, hi] at hw

/-- The draws of a line decide which levels its pass samples, not that it runs (R151, log entry 20). -/
theorem step_ranPoll {s t : State} (h : step s = .next t) (hs : StepsTopLevelEnable s) : RanPoll s t := by
  obtain ⟨⟨w, hw, hd⟩, hn⟩ := hs
  obtain ⟨hf, rest, hcommand | ⟨d, hline⟩⟩ := acceptedWord_eq_some hw
  · rw [step_command hf hcommand, accept_of_decode hd] at h
    exact (exec_irqen_ranPoll h hn :)
  · rw [step_line hf hline] at h
    obtain ⟨u, hu, rfl⟩ := acceptLine_cases h
    rw [accept_of_decode hd] at hu
    exact (exec_irqen_ranPoll hu hn :)

theorem step_ranNoPoll_of_accepted {s t : State} {w : CmdWord} (hw : acceptedWord s = some w) (h : step s = .next t)
    (hs : ¬ StepsTopLevelEnable s) : RanNoPoll s t := by
  have hword : ¬(decode w = .command .irqen ∧ s.nest = 1) := fun ⟨hd, hn⟩ => hs ⟨⟨w, hw, hd⟩, hn⟩
  obtain ⟨hf, rest, hcommand | ⟨d, hline⟩⟩ := acceptedWord_eq_some hw
  · rw [step_command hf hcommand] at h
    exact (accept_ranNoPoll h hword :)
  · rw [step_line hf hline] at h
    obtain ⟨u, hu, rfl⟩ := acceptLine_cases h
    obtain ⟨hpolls, hdio, -, hradio⟩ := accept_ranNoPoll hu hword
    exact ⟨hpolls, hdio, rfl, hradio⟩

theorem radioIrq_not_mem_restart (s : State) (k : Nat) : .radioIrq k ∉ (restart s).trace := by
  cases hc : s.cfg.cfgOk <;> simp [hc]

/-- Settles O30: of the four ways a command completes only the top-level IRQEN polls; a step runs its command, or
refuses, waits or resets. -/
theorem pollOnlyInTopLevelIrqen : Obligations.PollOnlyInTopLevelIrqen := by
  refine ⟨fun s t i h => ⟨?_, exec_ranNoPoll h⟩, fun s t h => ⟨step_ranPoll h, fun hs => ?_⟩⟩
  · rintro ⟨rfl, hn⟩
    obtain ⟨hpolls, -⟩ := exec_irqen_ranPoll h hn
    exact hpolls
  · cases hw : acceptedWord s with
    | some w =>
      obtain ⟨hpolls, hdio, hpins, hradio⟩ := step_ranNoPoll_of_accepted hw h hs
      exact ⟨hpolls, hpins, .inl ⟨hdio, hradio⟩⟩
    | none =>
      rcases step_cases_of_nothing_accepted hw h with rfl | ⟨hreset, rest, rfl⟩
      · exact ⟨rfl, rfl, .inl ⟨rfl, fun _ => rfl⟩⟩
      · exact ⟨rfl, rfl, .inr ⟨hreset, rfl, radioIrq_not_mem_restart _⟩⟩

/-! ### One pass, slot by slot -/

theorem risingPending_iff (s : State) (i : Nat) :
    risingPending s i = true ↔ s.cfg.isUsed i = true ∧ dioAt s i = false ∧ pinSample s i = true := by
  simp [risingPending, and_comm]

theorem polledDio_getD_of_used {s : State} {i : Nat} (hu : s.cfg.isUsed i = true) :
    (polledDio s).getD i false = pinSample s i := by
  rw [polledDio_getD (isUsed_lt hu), polledLevel, if_pos hu]

/-- A pass takes one level of a used slot and none of an unused one (R61, R152). -/
theorem polledPins_getD (s : State) (i : Nat) :
    (polledPins s).getD i [] = if s.cfg.isUsed i then (s.pinIn.getD i []).tail else s.pinIn.getD i [] := by
  cases hp : s.pinIn[i]? <;> simp [polledPins, List.getElem?_mapIdx, hp]

theorem mem_risingSlots_iff (s : State) (i : Nat) :
    i ∈ (List.range s.cfg.numDio).filter (risingPending s) ↔ risingPending s i = true := by
  rw [List.mem_filter, List.mem_range, and_iff_right_iff_imp]
  exact fun h => isUsed_lt ((risingPending_iff s i).mp h).1

/-- A pass reports a slot once if it rises, else not at all (R150). -/
theorem count_risingEvents (s : State) (i : Nat) :
    (risingEvents s).count (.radioIrq i) = if risingPending s i then 1 else 0 := by
  have hinj : Function.Injective Event.radioIrq := fun _ _ h => Event.radioIrq.inj h
  have hnodup : ((List.range s.cfg.numDio).filter (risingPending s)).Nodup := List.nodup_range.filter _
  rw [risingEvents, List.count_map_of_injective _ _ hinj, hnodup.count]
  simp only [mem_risingSlots_iff]

/-- No command writes the level of a slot that is not used, a slot past the end of the pin file included (R152). -/
theorem exec_dioAt_of_not_used {i : Instr} {s t : State} (h : exec i s = .next t) (hs : DioSized s) {k : Nat}
    (hu : s.cfg.isUsed k = false) : dioAt t k = dioAt s k := by
  by_cases hk : k < s.cfg.numDio
  · exact exec_dioAt_of_unused h hs hk hu
  · have hpast := Nat.not_lt.mp hk
    obtain ⟨hcfg, -, -⟩ := exec_frame h
    have ht : t.dio.length = s.cfg.numDio := (exec_keeps_dioSized h hs).trans (congrArg Config.numDio hcfg)
    rw [dioAt, dioAt, List.getD_eq_default _ _ (ht.trans_le hpast), List.getD_eq_default _ _ (hs.trans_le hpast)]

/-- Settles O31: only a pass takes levels or reports slots, and a pass skips the slot. -/
theorem unusedSlotIsNeverTouched : Obligations.UnusedSlotIsNeverTouched := by
  intro s t i k hs hu h
  refine ⟨exec_dioAt_of_not_used h hs hu, ?_⟩
  by_cases hi : IsTopLevelEnable i s
  · obtain ⟨rfl, hn⟩ := hi
    rw [exec_irqen_top s hn hs, Host.Outcome.next.injEq] at h
    subst h
    constructor
    · simp only [polledPins_getD, hu, Bool.false_eq_true, if_false]
    · simp [count_risingEvents, risingPending, hu]
  · obtain ⟨-, -, hpins, hradio⟩ := exec_ranNoPoll h hi
    exact ⟨by rw [hpins], hradio k⟩

/-- Settles O32: the slots of the events are the rising ones among the slots in ascending order. -/
theorem passEventsAscend : Obligations.PassEventsAscend := by
  intro s hs hn
  refine ⟨_, (List.range s.cfg.numDio).filter (risingPending s), exec_irqen_top s hn hs,
    List.pairwise_lt_range.filter _, rfl, fun i => ?_⟩
  rw [mem_risingSlots_iff, risingPending_iff]
  refine and_congr_right fun hu => ?_
  rw [← polledDio_getD_of_used hu]
  rfl

/-! ### Passes one after the other -/

/-- The block after one IRQDIS and the IRQEN that matches it, issued at depth 0 (R130, R131, R150). -/
def passed (s : State) : State :=
  { s with nest := 0, ien := true, dio := polledDio s, pinIn := polledPins s, pollCount := s.pollCount + 1,
           trace := s.trace ++ [.hwIrqDisable] ++ .hwIrqEnable :: risingEvents s,
           responses := s.responses ++ [⟨false, 0⟩] ++ [⟨false, 0⟩] }

theorem passed_dioSized (s : State) : DioSized (passed s) := by simp [DioSized, passed, polledDio]

/-- The first of `n + 1` passes: `NEST_W` is at least 1, so there is room for its IRQDIS (R4). -/
theorem runAll_pollPasses_succ {s : State} (hs : DioSized s) (hn : s.nest = 0) (n : Nat) :
    runAll (pollPasses (n + 1)) s = runAll (pollPasses n) (passed s) := by
  have hroom : s.nest + 1 < 2 ^ s.cfg.nestW := by
    rw [hn]
    exact Nat.one_lt_two_pow (Nat.ne_of_gt s.cfg.nestW_pos)
  exact (runAll_cons_of_exec (exec_irqdis_eq s hroom)).trans
    (runAll_cons_of_exec (exec_irqen_top _ (congrArg (· + 1) hn) hs))

/-- What one pass makes of a used slot whose next level is `l` (R154). -/
theorem passed_of_level {s : State} {i : Nat} {l : Bool} {rest : List Bool} (hu : s.cfg.isUsed i = true)
    (hl : s.pinIn.getD i [] = l :: rest) :
    dioAt (passed s) i = l ∧ (passed s).pinIn.getD i [] = rest ∧
      (passed s).trace.count (.radioIrq i) = s.trace.count (.radioIrq i) + if l && !dioAt s i then 1 else 0 := by
  have hsample : pinSample s i = l := by rw [pinSample, hl, List.headD_cons]
  refine ⟨(polledDio_getD_of_used hu).trans hsample, ?_, ?_⟩
  · calc (polledPins s).getD i []
        = (s.pinIn.getD i []).tail := (polledPins_getD s i).trans (if_pos hu)
      _ = rest := by rw [hl, List.tail_cons]
  · simp [passed, count_risingEvents, risingPending, hu, hsample]

/-- The pass that takes a level stores it, and reports the slot iff it rises to that level from the one before. -/
theorem runAll_pollPasses_level {s : State} {i : Nat} {levels rest : List Bool} (hs : DioSized s) (hn : s.nest = 0)
    (hu : s.cfg.isUsed i = true) (hlevels : s.pinIn.getD i [] = levels ++ rest) {k : Nat} {l : Bool}
    (hl : levels[k]? = some l) :
    ∃ t u, runAll (pollPasses k) s = .next t ∧ runAll (pollPasses 1) t = .next u ∧ dioAt u i = l ∧
      u.trace.count (.radioIrq i) = t.trace.count (.radioIrq i) +
        if l && !(dioAt s i :: levels).getD k false then 1 else 0 := by
  induction k generalizing s levels with
  | zero =>
    obtain ⟨levels, rfl⟩ := List.head?_eq_some_iff.mp (List.head?_eq_getElem?.trans hl)
    obtain ⟨hdio, -, hcount⟩ := passed_of_level hu hlevels
    exact ⟨s, passed s, rfl, runAll_pollPasses_succ hs hn 0, hdio, hcount⟩
  | succ k ih =>
    cases levels with
    | nil => cases hl
    | cons first levels =>
      obtain ⟨hdio, hpins, -⟩ := passed_of_level hu hlevels
      obtain ⟨t, u, ht, hrest⟩ := ih (passed_dioSized s) rfl hu hpins hl
      rw [hdio] at hrest
      exact ⟨t, u, (runAll_pollPasses_succ hs hn k).trans ht, hrest⟩

/-- All passes together report the slot once per rise. -/
theorem runAll_pollPasses_risings {s : State} {i : Nat} {levels rest : List Bool} (hs : DioSized s) (hn : s.nest = 0)
    (hu : s.cfg.isUsed i = true) (hlevels : s.pinIn.getD i [] = levels ++ rest) :
    ∃ t, runAll (pollPasses levels.length) s = .next t ∧
      t.trace.count (.radioIrq i) = s.trace.count (.radioIrq i) + risings (dioAt s i) levels := by
  induction levels generalizing s with
  | nil => exact ⟨s, rfl, rfl⟩
  | cons l levels ih =>
    obtain ⟨hdio, hpins, hcount⟩ := passed_of_level hu hlevels
    obtain ⟨t, ht, htotal⟩ := ih (passed_dioSized s) rfl hu hpins
    refine ⟨t, (runAll_pollPasses_succ hs hn levels.length).trans ht, ?_⟩
    rw [htotal, hcount, hdio, risings, Nat.add_assoc]

/-- Settles O33: each pass takes one level, so the passes follow the list of levels. -/
theorem edgeDetectionSequence : Obligations.EdgeDetectionSequence :=
  fun _ _ _ _ hs hn hu hlevels =>
    ⟨fun _ _ hl => runAll_pollPasses_level hs hn hu hlevels hl, runAll_pollPasses_risings hs hn hu hlevels⟩

/-- Settles O34: reset leaves `DIO[i]` false, so a first level that is true is a rise. -/
theorem highAtStartIsRisingEdge : Obligations.HighAtStartIsRisingEdge := by
  intro c pins i hu hhigh
  obtain ⟨rest, hlevels⟩ := List.head?_eq_some_iff.mp hhigh
  have hsized : DioSized { State.resetOf c with pinIn := pins } := List.length_replicate
  have hlow : dioAt { State.resetOf c with pinIn := pins } i = false := by simp [dioAt, isUsed_lt hu]
  obtain ⟨hdio, -, hcount⟩ := passed_of_level (s := { State.resetOf c with pinIn := pins }) hu hlevels
  refine ⟨_, runAll_pollPasses_succ hsized rfl 0, ?_, hdio⟩
  rw [← List.count_pos_iff, hcount, hlow]
  exact Nat.succ_pos _

end Sys2Proof.Machine
end
